-- ==== Sys2Proof/Word.lean ====
section
/-! DEFINITION. The word type of the block: command words, limbs and entropy words are all 32 bits (R6, R9).
Bits are numbered from 0, the least significant (R9). -/

namespace Sys2Proof

/-- A 32-bit word: a command word, a limb of an operand register, a bus value, an entropy word (R6). -/
abbrev Word := BitVec 32

end Sys2Proof
end

