-- ==== Sys2Proof/Config.lean ====
section
/-! DEFINITION. What the spec fixes for every block, and the one open parameter.
The operand width `W` is open (R5): it is held in `State.nlimbs` (`W = 32 * nlimbs`), a field no step changes, so that a
claim about every state is a claim about every width (log entry 1).  `BASE` and `BUS` are open too, and no model sees
them (R6, R55).  The spec leaves no value open that an instruction produces (R162).  The one thing left free is the entropy: the words an
endless source offers are a free value here (R65, log entry 3). -/

namespace Sys2Proof.Config

/-- The number of operand registers, `NREG` (R6, R21). -/
def numRegs : Nat := 8

/-- Bits in a limb (R6, R9). -/
def limbBits : Nat := 32

/-- The size of the register window in bytes (R50). -/
def windowBytes : Nat := 0x3000

/-- The command set version that `CFG[31:24]` shows (R25). -/
def version : Nat := 1

/-- `W` from `NLIMBS` (R5). -/
def width (nlimbs : Nat) : Nat := limbBits * nlimbs

/-- The widths R5 admits: `W` a multiple of 32 with `32 <= W <= 8192`. -/
abbrev LegalLimbs (nlimbs : Nat) : Prop := 1 ≤ nlimbs ∧ nlimbs ≤ 256

/-- `NLIMBS` of `State.reset`.  DESIGN CHOICE (log entry 1): `W` is open; 64 is the width the spec's own test vectors
use (decision D38). -/
def resetLimbs : Nat := 2

/-- The words of an endless entropy source, `k` counting those already taken: each a free draw, under no law (R65).
Nothing can evaluate it, so a claim about a source that offers these words is a claim about every endless word sequence
(log entry 3). -/
opaque freeWord : Nat → Word

end Sys2Proof.Config
end

