-- ==== Sys2Proof/Syntax.lean ====
section
/-! DEFINITION. The seven commands of the command set, one constructor per row of the opcode table (R2, R74).
Operands are the field values of the command word: register numbers and the 12-bit round count (R71, R72, R73).
`WellFormed` bounds them; the decoder gives no others. -/

namespace Sys2Proof

/-- A command of RSA420-ARITH, command set version 1 (R74).  The destination stands first (R78). -/
inductive Instr where
  /-- `MRTEST xa, #imm` (R90): is `x[ra]` prime, by `imm` Miller–Rabin rounds. -/
  | mrtest (ra imm : Nat)
  /-- `MODINV xd, xa, xm` (R113): the inverse of `x[ra]` modulo `x[rm]`. -/
  | modinv (rd ra rm : Nat)
  /-- `GCD xd, xa, xb` (R111): the greatest common divisor of `x[ra]` and `x[rb]`. -/
  | gcd (rd ra rb : Nat)
  /-- `MODEXP xd, xa, xb, xm` (R126): `x[ra]` to the power `x[rb]` modulo `x[rm]`. -/
  | modexp (rd ra rb rm : Nat)
  /-- `MODMUL xd, xa, xb, xm` (R135): the product of `x[ra]` and `x[rb]` modulo `x[rm]`. -/
  | modmul (rd ra rb rm : Nat)
  /-- `MODRED xd, xa, xm` (R136): `x[ra]` modulo `x[rm]`. -/
  | modred (rd ra rm : Nat)
  /-- `CMP xa, xb` (R137): compare `x[ra]` with `x[rb]`. -/
  | cmp (ra rb : Nat)
  deriving DecidableEq, Repr

end Sys2Proof
end

