-- ==== Sys2Proof/WellFormed.lean ====
section
/-! DEFINITION. Which commands have a command word: register numbers in `0..7` and a round count in `0..4095`
(R71, R73, R77).  A round count of 0 is well formed: it is a legal encoding whose execution raises (R73). -/

namespace Sys2Proof

/-- A register number fits its 3-bit field (R71). -/
abbrev RegOk (r : Nat) : Prop := r < Config.numRegs

/-- A round count fits the 12-bit immediate (R73). -/
abbrev ImmOk (imm : Nat) : Prop := imm < 4096

/-- The premise of R77's `decode(encode(c)) = c`. -/
abbrev Instr.WellFormed (i : Instr) : Prop :=
  match i with
  | .mrtest ra imm => RegOk ra ∧ ImmOk imm
  | .modinv rd ra rm => RegOk rd ∧ RegOk ra ∧ RegOk rm
  | .gcd rd ra rb => RegOk rd ∧ RegOk ra ∧ RegOk rb
  | .modexp rd ra rb rm => RegOk rd ∧ RegOk ra ∧ RegOk rb ∧ RegOk rm
  | .modmul rd ra rb rm => RegOk rd ∧ RegOk ra ∧ RegOk rb ∧ RegOk rm
  | .modred rd ra rm => RegOk rd ∧ RegOk ra ∧ RegOk rm
  | .cmp ra rb => RegOk ra ∧ RegOk rb

end Sys2Proof
end

