-- ==== Sys2Proof/Decode.lean ====
section
/-! DEFINITION. The command word: its fields (R71), the decoder (R77, total on 32-bit words, an illegal word rejected by
the reason R75 gives) and the encoder (R77).  The block sees a command word as one 32-bit value, written in one
transaction; there are no bytes and no byte order (R52). -/

namespace Sys2Proof

/-- Why a word is no command (R75). -/
inductive IllegalReason where
  /-- `w[7]`, `w[11]`, `w[15]` or `w[19]` is 1. -/
  | reservedBit
  /-- `op = 0` or `op >= 8`. -/
  | unknownOpcode
  /-- A field the command does not use is not 0. -/
  | unusedField
  deriving DecidableEq, Repr

/-- What a command word is: one of the seven commands, or illegal (R76, R77). -/
inductive Decoded where
  | command (i : Instr)
  | illegal (why : IllegalReason)
  deriving DecidableEq, Repr

/-- `w[lo+len-1 : lo]` as an unsigned integer (R9). -/
def field (w : Word) (lo len : Nat) : Nat := (w.extractLsb' lo len).toNat

/-- `w[3:0]` (R71). -/
def opField (w : Word) : Nat := field w 0 4
/-- `w[6:4]` (R71). -/
def rdField (w : Word) : Nat := field w 4 3
/-- `w[10:8]` (R71). -/
def raField (w : Word) : Nat := field w 8 3
/-- `w[14:12]` (R71). -/
def rbField (w : Word) : Nat := field w 12 3
/-- `w[18:16]` (R71). -/
def rmField (w : Word) : Nat := field w 16 3
/-- `w[31:20]`, zero-extended, never scaled (R73). -/
def immField (w : Word) : Nat := field w 20 12

/-- One of the four reserved bits is 1 (R71, R75). -/
def reservedSet (w : Word) : Bool :=
  w.getLsbD 7 || w.getLsbD 11 || w.getLsbD 15 || w.getLsbD 19

/-- `i` when every unused field is 0, else illegal (R75). -/
def whenUnusedZero (unusedZero : Bool) (i : Instr) : Decoded :=
  if unusedZero then .command i else .illegal .unusedField

/-- The decode function of R77. -/
def decode (w : Word) : Decoded :=
  let rd := rdField w
  let ra := raField w
  let rb := rbField w
  let rm := rmField w
  let imm := immField w
  if reservedSet w then .illegal .reservedBit
  else match opField w with
    | 1 => whenUnusedZero (rd == 0 && rb == 0 && rm == 0) (.mrtest ra imm)
    | 2 => whenUnusedZero (rb == 0 && imm == 0) (.modinv rd ra rm)
    | 3 => whenUnusedZero (rm == 0 && imm == 0) (.gcd rd ra rb)
    | 4 => whenUnusedZero (imm == 0) (.modexp rd ra rb rm)
    | 5 => whenUnusedZero (imm == 0) (.modmul rd ra rb rm)
    | 6 => whenUnusedZero (rb == 0 && imm == 0) (.modred rd ra rm)
    | 7 => whenUnusedZero (rd == 0 && rm == 0 && imm == 0) (.cmp ra rb)
    | _ => .illegal .unknownOpcode

/-- The word with the given fields, R77's `encode(op, rd, ra, rb, rm, imm)`. -/
def encodeFields (op rd ra rb rm imm : Nat) : Word :=
  BitVec.ofNat 32 (op + 16 * rd + 256 * ra + 4096 * rb + 65536 * rm + 1048576 * imm)

/-- The encode function of R77; unused fields are passed as 0, and opcodes are those of R74. -/
def encode : Instr → Word
  | .mrtest ra imm => encodeFields 1 0 ra 0 0 imm
  | .modinv rd ra rm => encodeFields 2 rd ra 0 rm 0
  | .gcd rd ra rb => encodeFields 3 rd ra rb 0 0
  | .modexp rd ra rb rm => encodeFields 4 rd ra rb rm 0
  | .modmul rd ra rb rm => encodeFields 5 rd ra rb rm 0
  | .modred rd ra rm => encodeFields 6 rd ra 0 rm 0
  | .cmp ra rb => encodeFields 7 0 ra rb 0 0

/-- The pseudo-instruction `MODSQR xd, xa, xm`: `MODMUL xd, xa, xa, xm` (R80). -/
def modsqr (rd ra rm : Nat) : Instr := .modmul rd ra ra rm
/-- The pseudo-instruction `ENC xd, xa, xb, xm`: `MODEXP xd, xa, xb, xm` (R80). -/
def enc (rd ra rb rm : Nat) : Instr := .modexp rd ra rb rm
/-- The pseudo-instruction `DEC xd, xa, xb, xm`: `MODEXP xd, xa, xb, xm` (R80). -/
def dec (rd ra rb rm : Nat) : Instr := .modexp rd ra rb rm

/-- The instruction the decoder reads from the table's numbering of a word, which is the spec's own (bit 0 least
significant, one 32-bit word, R9, R70).  Bits above `nbits` are 0. -/
def decodeTableWord (nbits w : Nat) : Option Instr :=
  match decode (BitVec.ofNat 32 (w % 2 ^ nbits)) with
  | .command i => some i
  | .illegal _ => none

end Sys2Proof
end

