-- ==== Sys2Proof/Machine/State.lean ====
section
/-! DEFINITION. Everything the spec gives the machine, as plain data (R20 to R38), and the four agents' inputs.
The block's own state is `x` to `ctx` and the constant `nlimbs`; the fields after `ctx` are the model's own and hold what
the agents outside the block are about to do and what the bus has answered (log entries 2, 3, 8). -/

namespace Sys2Proof.Machine

/-- The error kinds of R150.  The block never raises `notPrime`, `modulusTooSmall` or `keyMismatch`: they are host
software's use of the same enumeration. -/
inductive ErrKind where
  | invalidArgument
  | notInvertible
  | notPrime
  | modulusTooSmall
  | keyMismatch
  | invalidBlock
  | illegalCommand
  deriving DecidableEq, Repr

/-- `ctx.mr` of R30: the rounds passed so far, and the entropy words collected for the current candidate, oldest first. -/
structure MrProgress where
  i   : Nat
  buf : List Word
  deriving DecidableEq, Repr

/-- The engine context of R30: the command word in flight and the operands latched at its issue. -/
structure Ctx where
  word : Word
  va   : Nat
  vb   : Nat
  vm   : Nat
  mr   : Option MrProgress
  deriving DecidableEq, Repr

/-- What an entropy source offers once its listed words are taken (R65, R185). -/
inductive Supply where
  /-- Nothing: the engine then holds (R185 (a)). -/
  | silent
  /-- These words again and again, without end; nothing, if there are none. -/
  | repeating (ws : List Word)
  /-- The free words from number `k` on, without end: `Config.freeWord k`, `Config.freeWord (k + 1)`, ... -/
  | free (k : Nat)
  deriving DecidableEq, Repr

/-- The entropy source as plain data: the words it offers first, in order, and what it offers then. -/
structure Source where
  words : List Word
  more  : Supply
  deriving DecidableEq, Repr

/-- One window transaction of the host (R50): an offset in the window, a size in bytes and, for a write, the 32-bit
value.  A size other than 4 is admitted here because the bus can carry it; the block answers it with `BusError` (R53) and
looks at no value, so none wider than 32 bits is held. -/
inductive Transaction where
  | read (off size : Nat)
  | write (off size : Nat) (v : Word)
  deriving DecidableEq, Repr

/-- The window's answers (R50): `Ok(value)` to a read, `Ok` to a write, `BusError` (R160). -/
inductive BusAnswer where
  | okData (v : Word)
  | ok
  | busError
  deriving DecidableEq, Repr

/-- What happens next, in the one total order of R57: a step of the host, the engine, the entropy source or reset (R20).
The last three constructors are the host's own control flow in a host script (R79); they touch nothing of the block. -/
inductive Event where
  /-- The host performs one window transaction. -/
  | host (t : Transaction)
  /-- The engine takes its step, if it has one. -/
  | engine
  /-- From now on the entropy source offers this. -/
  | source (src : Source)
  /-- The reset input is asserted (R180). -/
  | reset
  /-- `WAIT` of R79: read `STATUS` until `DONE` is 1; the engine takes a step between two reads. -/
  | poll
  /-- Go on after the next `n` events. -/
  | skip (n : Nat)
  /-- `IF` of R79: go on after the next `n` events unless the bit of the last `STATUS` value read is `want`. -/
  | skipUnless (bit : Nat) (want : Bool) (n : Nat)
  deriving DecidableEq, Repr

/-- The state of the machine. -/
structure State where
  /-- `NLIMBS`, so `W = 32 * nlimbs`: the block's fixed parameter (R5); no step changes it. -/
  nlimbs  : Nat
  /-- The operand registers `x0` to `x7`, unsigned integers below `2^W` (R21). -/
  x       : Vector Nat 8
  /-- `CTRL.IE` (R26). -/
  ie      : Bool
  /-- `STATUS.BUSY` (R27). -/
  busy    : Bool
  /-- `STATUS.DONE` (R27). -/
  done    : Bool
  /-- `STATUS.EQ` (R27). -/
  eq      : Bool
  /-- `STATUS.LT` (R27). -/
  lt      : Bool
  /-- `STATUS.PRIME` (R27). -/
  prime   : Bool
  /-- `STATUS.HOSTERR` (R27). -/
  hosterr : Bool
  /-- `ERRCODE.CODE` (R28). -/
  code    : BitVec 4
  /-- `CMD`, the most recently accepted command word (R29). -/
  cmd     : Word
  /-- The engine context, `none` when idle (R30). -/
  ctx     : Option Ctx
  /-- What the entropy source offers: `rnd_valid` is that there is a next word, `rnd_data` is that word (R65). -/
  rnd     : Source
  /-- What the agents outside the engine, and the engine in between, do next; when it is empty the engine acts alone. -/
  agenda  : List Event
  /-- The window's answers to the transactions so far, the newest first: what the host has to read from (R50, R79). -/
  answers : List BusAnswer
  /-- The host's variable `s` of R79: the last `STATUS` value it read. -/
  seen    : Word
  deriving DecidableEq, Repr

/-- Why the machine stops.  The spec gives it no stop: every command word and every operand combination ends in success
or error, and a hold is a wait (R162). -/
inductive Fault where
  /-- Raised by a command's meaning asked to run when no command is in flight.  The engine has a step only while one is
  (R20), and `step` never asks, so no run reaches this.  Safe. -/
  | engineIdle
  deriving DecidableEq, Repr

/-- Why the machine has no meaning for an instruction. -/
inductive Refusal where
  /-- Raised by `exec` for an instruction without a meaning; no arm of `exec` raises it.  Safe. -/
  | notModelled (mnemonic : String)
  deriving DecidableEq, Repr

/-- The state right after reset of a block with `nlimbs` limbs (R37), its surroundings quiet. -/
def State.resetOf (nlimbs : Nat) : State where
  nlimbs  := nlimbs
  x       := #v[0, 0, 0, 0, 0, 0, 0, 0]
  ie      := false
  busy    := false
  done    := false
  eq      := false
  lt      := false
  prime   := false
  hosterr := false
  code    := 0#4
  cmd     := 0#32
  ctx     := none
  rnd     := { words := [], more := .silent }
  agenda  := []
  answers := []
  seen    := 0#32

/-- The machine right after reset (R37, R182), at the width of log entry 1. -/
def State.reset : State := State.resetOf Config.resetLimbs

end Sys2Proof.Machine
end

