-- ==== Sys2Proof/Machine/Operands.lean ====
section
/-! DEFINITION. Operands: limbs and bit lengths (R9), the operand registers (R10, R21), their limbs in the window
(R52, R62, R63) and the values a command latches at issue (R31). -/

namespace Sys2Proof.Machine

/-- The `j`-th 32-bit limb of `v`, limb 0 least significant (R9, R52). -/
def limb (v j : Nat) : Nat := v / 2 ^ (32 * j) % 2 ^ 32

/-- The number of bits of `v`: 0 for 0, else the `k` with `2^(k-1) <= v < 2^k` (R9). -/
def bitlen (v : Nat) : Nat := if v = 0 then 0 else v.log2 + 1

/-- `x[i]` (R10).  The spec names eight registers; a number above 7 comes from no command word and reads as 0
(log entry 11). -/
def State.readX (s : State) (i : Nat) : Nat := s.x[i]?.getD 0

/-- `x[i] <- v` (R10).  A number above 7 writes nothing (log entry 11). -/
def State.setX (i v : Nat) (s : State) : State := { s with x := s.x.setIfInBounds i v }

/-- Limb `j` of `x[i]` as the host reads it (R62). -/
def State.readLimb (s : State) (i j : Nat) : Word := BitVec.ofNat 32 (limb (s.readX i) j)

/-- `a` with limb `j` replaced by `v`, the other limbs unchanged (R63). -/
def replaceLimb (a j : Nat) (v : Word) : Nat := a - limb a j * 2 ^ (32 * j) + v.toNat * 2 ^ (32 * j)

/-- Write limb `j` of `x[i]` (R63). -/
def State.writeLimb (i j : Nat) (v : Word) (s : State) : State := s.setX i (replaceLimb (s.readX i) j v)

/-- The word decodes to an `MRTEST` whose first step is a draw: `imm != 0`, `va` odd and `va >= 5` (R31). -/
def needsWitness (w : Word) (va : Nat) : Bool :=
  match decode w with
  | .command (.mrtest _ imm) => imm != 0 && va % 2 == 1 && decide (5 ≤ va)
  | _ => false

/-- The engine context of a word issued in `s` (R31): all three operands are latched whatever the opcode. -/
def State.latch (s : State) (w : Word) : Ctx where
  word := w
  va   := s.readX (raField w)
  vb   := s.readX (rbField w)
  vm   := s.readX (rmField w)
  mr   := if needsWitness w (s.readX (raField w)) then some { i := 0, buf := [] } else none

end Sys2Proof.Machine
end

