-- ==== Sys2Proof/Machine/Arith.lean ====
section
/-! DEFINITION. The mathematical functions the rules use by name (R12), each as the spec's own reference computation on
exact integers (R138).  A loop of the spec is structural recursion on a bound that it cannot exceed (log entry 13). -/

namespace Sys2Proof.Machine

/-- The loop of `GCD`: `while y != 0: (x, y) = (y, x mod y)` (R111); `y` decreases, so at most `fuel = y` turns. -/
def gcdLoop : Nat → Nat → Nat → Nat
  | 0, x, _ => x
  | fuel + 1, x, y => if y = 0 then x else gcdLoop fuel y (x % y)

/-- `GCD`'s reference computation: swap first when `x < y`, then the remainder loop (R111). -/
def gcdRef (x y : Nat) : Nat :=
  if x < y then gcdLoop x y x else gcdLoop y x y

/-- The loop of `egcd` on `(r0, r1, x0, x1)` (R112); `r1` decreases, so at most `fuel = r1` turns. -/
def egcdLoop : Nat → Nat → Nat → Int → Int → Nat × Int
  | 0, r0, _, x0, _ => (r0, x0)
  | fuel + 1, r0, r1, x0, x1 =>
    if r1 = 0 then (r0, x0)
    else egcdLoop fuel r1 (r0 - r0 / r1 * r1) x1 (x0 - ((r0 / r1 : Nat) : Int) * x1)

/-- `egcd(b, m)`: the gcd and a Bézout coefficient of `b`, possibly negative (R112). -/
def egcd (b m : Nat) : Nat × Int := egcdLoop m b m 1 0

/-- `x mod m` in `[0, m)`, also for negative `x` (R8, R113). -/
def intMod (x : Int) (m : Nat) : Nat := (x % (m : Int)).toNat

/-- The loop of `modpow` over the exponent's bits `k - 1` down to 0 (R127). -/
def modpowLoop (b e m : Nat) : Nat → Nat → Nat
  | 0, acc => acc
  | k + 1, acc =>
    if e.testBit k then modpowLoop b e m k (acc * acc % m * b % m)
    else modpowLoop b e m k (acc * acc % m)

/-- `modpow(b, e, m)`, by left-to-right square-and-multiply (R125, R127). -/
def modpow (b e m : Nat) : Nat := modpowLoop b e m (bitlen e) (1 % m)

/-- The loop of `decomp`: while `s` is even, halve it and count (R92); at most `fuel = bitlen s` turns. -/
def decompLoop : Nat → Nat → Nat → Nat × Nat
  | 0, r, s => (r, s)
  | fuel + 1, r, s => if s % 2 = 0 then decompLoop fuel (r + 1) (s / 2) else (r, s)

/-- `decomp(n)`: the `(r, s)` with `n - 1 = 2^r * s` and `s` odd, by repeated halving (R92). -/
def decomp (n : Nat) : Nat × Nat := decompLoop (bitlen (n - 1)) 0 (n - 1)

/-- The squaring loop of a round: up to `k` squarings, passing when one gives `n - 1` (R94). -/
def squaringLoop (n : Nat) : Nat → Nat → Bool
  | 0, _ => false
  | k + 1, x => if x * x % n = n - 1 then true else squaringLoop n k (x * x % n)

/-- `mr_round(n, a)`: this round passes (R94). -/
def mrRound (n a : Nat) : Bool :=
  let d := decomp n
  let x := modpow a d.2 n
  if x = 1 ∨ x = n - 1 then true else squaringLoop n (d.1 - 1) x

/-- `k` of R93: the number of low bits of a candidate's words that are used. -/
def candidateBits (n : Nat) : Nat := bitlen (n - 4)

/-- `nw` of R93: the number of entropy words of one candidate, `ceil(k / 32)`. -/
def candidateWords (n : Nat) : Nat := (candidateBits n + 31) / 32

/-- The sum of `u_j * 2^(32*j)` over 32-bit words, the first least significant: a candidate's words in the order drawn
(R93), a register's limbs from limb 0 (R79). -/
def wordsValue : List Word → Nat
  | [] => 0
  | w :: ws => w.toNat + 2 ^ 32 * wordsValue ws

/-- `c` of R93: the low `k` bits of the candidate's words. -/
def candidate (n : Nat) (ws : List Word) : Nat := wordsValue ws % 2 ^ candidateBits n

/-- A candidate is accepted when `c <= n - 4` (R93). -/
def accepted (n : Nat) (ws : List Word) : Bool := decide (candidate n ws ≤ n - 4)

/-- The search of `witness` over at most `fuel` candidates; `used` words are already consumed (R93). -/
def witnessLoop (n : Nat) : Nat → Nat → List Word → Option (Nat × Nat)
  | 0, _, _ => none
  | fuel + 1, used, ws =>
    if ws.length < candidateWords n then none
    else if accepted n (ws.take (candidateWords n)) then
      some (candidate n (ws.take (candidateWords n)) + 2, used + candidateWords n)
    else witnessLoop n fuel (used + candidateWords n) (ws.drop (candidateWords n))

/-- `witness(n, words)`: the first accepted `a` and the number of words consumed, if the words hold one (R93). -/
def witness (n : Nat) (ws : List Word) : Option (Nat × Nat) := witnessLoop n ws.length 0 ws

/-- The rounds loop of R95 over a word sequence: the verdict and the number of words consumed, `none` where the words run
out first and the engine would hold.  `rounds` are still to run, `used` words are already consumed. -/
def mrRounds (n : Nat) : Nat → Nat → List Word → Option (Bool × Nat)
  | 0, used, _ => some (true, used)
  | rounds + 1, used, ws =>
    match witness n ws with
    | none => none
    | some (a, k) => if mrRound n a then mrRounds n rounds (used + k) (ws.drop k) else some (false, used + k)

/-- `MRTEST` on odd `n >= 5` as one function of `(n, rounds)` and the entropy words (R90, R95). -/
def mrtestVerdict (n rounds : Nat) (ws : List Word) : Option (Bool × Nat) := mrRounds n rounds 0 ws

end Sys2Proof.Machine
end

