-- ==== Sys2Proof/Machine/Flags.lean ====
section
/-! DEFINITION. The flags and the five control and status registers as the host reads them (R23 to R29), the error codes
(R150), the comparison flags (R137) and the two output wires (R33, R65). -/

namespace Sys2Proof.Machine

/-- The codes of R150. -/
def ErrKind.code : ErrKind → BitVec 4
  | .invalidArgument => 1#4
  | .notInvertible => 2#4
  | .notPrime => 3#4
  | .modulusTooSmall => 4#4
  | .keyMismatch => 5#4
  | .invalidBlock => 6#4
  | .illegalCommand => 7#4

/-- `STATUS.ERR`: always equal to `ERRCODE.CODE != 0`, no state of its own (R27). -/
def State.err (s : State) : Bool := s.code != 0#4

/-- `STATUS.RNDWAIT`: the engine's next step is a draw of an entropy word, no state of its own (R27, R30). -/
def State.rndwait (s : State) : Bool :=
  match s.ctx with
  | some c => c.mr.isSome
  | none => false

/-- The interrupt output, `CTRL.IE and STATUS.DONE` (R33, R156). -/
def State.irq (s : State) : Bool := s.ie && s.done

/-- The entropy port's `rnd_ready` output (R65). -/
def State.rndReady (s : State) : Bool := s.rndwait

/-- `CFG` as read: `NLIMBS` in `[15:0]`, `NREG` in `[19:16]`, `VERSION` in `[31:24]`, `[23:20]` reserved zeros (R25). -/
def State.cfgWord (s : State) : Word :=
  BitVec.ofNat 32 (s.nlimbs % 2 ^ 16 + Config.numRegs * 2 ^ 16 + Config.version * 2 ^ 24)

/-- `CTRL` as read: 31 reserved zeros and `IE` (R26). -/
def State.ctrlWord (s : State) : Word := (BitVec.ofBool s.ie).setWidth 32

/-- `STATUS` as read, bit 31 first (R27). -/
def State.statusWord (s : State) : Word :=
  0#24 ++ BitVec.ofBool s.hosterr ++ BitVec.ofBool s.prime ++ BitVec.ofBool s.lt ++ BitVec.ofBool s.eq ++
    BitVec.ofBool s.rndwait ++ BitVec.ofBool s.err ++ BitVec.ofBool s.done ++ BitVec.ofBool s.busy

/-- `ERRCODE` as read: 28 reserved zeros and `CODE` (R28). -/
def State.errcodeWord (s : State) : Word := s.code.setWidth 32

/-- The flag writes of `CMP`: `EQ` and `LT` of the unsigned comparison (R137). -/
def State.setCompare (a b : Nat) (s : State) : State :=
  { s with eq := decide (a = b), lt := decide (a < b) }

/-- The flag write of `MRTEST`: the verdict (R97). -/
def State.setPrime (verdict : Bool) (s : State) : State := { s with prime := verdict }

end Sys2Proof.Machine
end

