-- ==== Sys2Proof/Machine/Source.lean ====
section
/-! DEFINITION. The entropy source on the other side of the port (R65): the word on offer and the words to come. -/

namespace Sys2Proof.Machine

/-- The word on offer, if there is one, and the source once that word has been taken (R65). -/
def Source.next (src : Source) : Option (Word × Source) :=
  match src.words with
  | w :: ws => some (w, { src with words := ws })
  | [] =>
    match src.more with
    | .silent => none
    | .repeating [] => none
    | .repeating (w :: ws) => some (w, { src with words := ws })
    | .free k => some (Config.freeWord k, { src with more := .free (k + 1) })

/-- The first `m` words the source will offer; fewer where it offers fewer. -/
def Source.upcoming : Nat → Source → List Word
  | 0, _ => []
  | m + 1, src =>
    match src.next with
    | some (w, rest) => w :: rest.upcoming m
    | none => []

/-- The source once `m` words have been taken, or all of them where it offers fewer. -/
def Source.after : Nat → Source → Source
  | 0, src => src
  | m + 1, src =>
    match src.next with
    | some (_, rest) => rest.after m
    | none => src

/-- The source that offers exactly these words, in this order, and then nothing: `RND` of R79. -/
def Source.exactly (ws : List Word) : Source := { words := ws, more := .silent }

end Sys2Proof.Machine
end

