-- ==== Sys2Proof/Machine/Ops.lean ====
section
/-! DEFINITION. The shared operations: issue (R31), the two completions (R32, R153), the engine's access to the command in
flight (R20, R30), the entropy draw (R65) and reset (R180).  Completion with error is this block's one form of taking an
exception: no handler, no saved state, no mode (R153); there is no return because nothing was entered (R157). -/

namespace Sys2Proof.Machine

/-- Issue of the word `w`, in one step (R31). -/
def State.issue (w : Word) (s : State) : State :=
  { s with cmd := w, code := 0#4, done := false, busy := true, ctx := some (s.latch w) }

/-- The end of a command, common to both completions: `BUSY <- 0`, `DONE <- 1`, `ctx <- none` (R32, R153). -/
def State.finish (s : State) : State := { s with busy := false, done := true, ctx := none }

/-- `commit_ok { writes }`: the writes and the end of the command, in one step (R32). -/
def commitOk (writes : State → State) (s : State) : State := (writes s).finish

/-- `raise k`: the error code and the end of the command, in one step, and nothing else (R153, R154). -/
def raise (k : ErrKind) (s : State) : State := { s with code := k.code }.finish

/-- Run `f` on the command in flight.  With none in flight the engine has no step (R20), see `Fault.engineIdle`. -/
def onCommand (s : State) (f : Ctx → State) : Host.Outcome State Fault Refusal :=
  match s.ctx with
  | some c => .next (f c)
  | none => .fault .engineIdle

/-- `draw_word()` for the command in flight (R65): the word on offer goes to `f` and leaves the port; with no word on
offer the engine holds, and nothing changes. -/
def drawWord (s : State) (f : Word → State → State) : State :=
  match s.rnd.next with
  | some (w, rest) => f w { s with rnd := rest }
  | none => s

/-- Reset (R180, R181): every piece of the block's state takes its reset value; the constant `nlimbs` stays (R25).  What
the entropy source offers, what the host does next and what the host has read are not the block's (log entry 4). -/
def State.resetBlock (s : State) : State :=
  { State.resetOf s.nlimbs with rnd := s.rnd, agenda := s.agenda, answers := s.answers, seen := s.seen }

end Sys2Proof.Machine
end

