-- ==== Sys2Proof/Machine/Euclid.lean ====
section
/-! DEFINITION. `GCD` and `MODINV`, the Euclidean commands (R110 to R114).  The sources are the values latched at issue
(R31), so a meaning takes the destination only. -/

namespace Sys2Proof.Machine

/-- `GCD xd, xa, xb` (R111). -/
def execGcd (rd : Nat) (s : State) : Host.Outcome State Fault Refusal :=
  onCommand s fun c =>
    if c.va = 0 ∨ c.vb = 0 then raise .invalidArgument s
    else commitOk (·.setX rd (gcdRef c.va c.vb)) s

/-- `MODINV xd, xa, xm` (R113). -/
def execModinv (rd : Nat) (s : State) : Host.Outcome State Fault Refusal :=
  onCommand s fun c =>
    if c.vm = 0 then raise .invalidArgument s
    else if (egcd c.va c.vm).1 ≠ 1 then raise .notInvertible s
    else commitOk (·.setX rd (intMod (egcd c.va c.vm).2 c.vm)) s

end Sys2Proof.Machine
end

