-- ==== Sys2Proof/Machine/Mau.lean ====
section
/-! DEFINITION. `MODMUL`, `MODRED` and `CMP`, the modular arithmetic unit (R135 to R137); products are exact before the
reduction (R138). -/

namespace Sys2Proof.Machine

/-- Write `v` to `x[rd]`, or raise `InvalidArgument` when the latched modulus is 0. -/
def commitReduced (rd : Nat) (v : Ctx → Nat) (s : State) : Host.Outcome State Fault Refusal :=
  onCommand s fun c =>
    if c.vm = 0 then raise .invalidArgument s else commitOk (·.setX rd (v c % c.vm)) s

/-- `MODMUL xd, xa, xb, xm` (R135). -/
def execModmul (rd : Nat) (s : State) : Host.Outcome State Fault Refusal :=
  commitReduced rd (fun c => c.va * c.vb) s

/-- `MODRED xd, xa, xm` (R136). -/
def execModred (rd : Nat) (s : State) : Host.Outcome State Fault Refusal :=
  commitReduced rd (fun c => c.va) s

/-- `CMP xa, xb` (R137); it raises no error. -/
def execCmp (s : State) : Host.Outcome State Fault Refusal :=
  onCommand s fun c => commitOk (·.setCompare c.va c.vb) s

end Sys2Proof.Machine
end

