-- ==== Sys2Proof/Machine/Modexp.lean ====
section
/-! DEFINITION. `MODEXP`, the modular exponentiation engine (R125 to R128). -/

namespace Sys2Proof.Machine

/-- `MODEXP xd, xa, xb, xm` (R126); a zero modulus is `InvalidBlock`, since no block is below it. -/
def execModexp (rd : Nat) (s : State) : Host.Outcome State Fault Refusal :=
  onCommand s fun c =>
    if c.va ≥ c.vm then raise .invalidBlock s
    else commitOk (·.setX rd (modpow c.va c.vb c.vm)) s

end Sys2Proof.Machine
end

