-- ==== Sys2Proof/Machine/Mrtest.lean ====
section
/-! DEFINITION. `MRTEST`, the Miller–Rabin primality test (R90 to R98). -/

namespace Sys2Proof.Machine

/-- The engine step of an `MRTEST` that draws no word: the checks of R91 in their order.  R91's last case, `n` odd and
`n >= 5`, is never in this position, since issue has then set `ctx.mr` (R31); the rounds would start here (log entry 10). -/
def mrtestComplete (rounds : Nat) (c : Ctx) (s : State) : State :=
  if rounds = 0 then raise .invalidArgument s
  else if c.va < 2 then commitOk (·.setPrime false) s
  else if c.va = 2 then commitOk (·.setPrime true) s
  else if c.va % 2 = 0 then commitOk (·.setPrime false) s
  else if c.va = 3 then commitOk (·.setPrime true) s
  else { s with ctx := some { c with mr := some { i := 0, buf := [] } } }

/-- The engine step `MR_WORD(w)` (R96). -/
def mrWord (rounds : Nat) (c : Ctx) (p : MrProgress) (w : Word) (s : State) : State :=
  let buf := p.buf ++ [w]
  if buf.length < candidateWords c.va then
    { s with ctx := some { c with mr := some { p with buf := buf } } }
  else if ¬ accepted c.va buf then
    { s with ctx := some { c with mr := some { p with buf := [] } } }
  else if ¬ mrRound c.va (candidate c.va buf + 2) then commitOk (·.setPrime false) s
  else if p.i + 1 = rounds then commitOk (·.setPrime true) s
  else { s with ctx := some { c with mr := some { i := p.i + 1, buf := [] } } }

/-- `MRTEST xa, #imm` (R90): one engine step of the test in flight.  `n` is the latched `va`. -/
def execMrtest (imm : Nat) (s : State) : Host.Outcome State Fault Refusal :=
  onCommand s fun c =>
    match c.mr with
    | none => mrtestComplete imm c s
    | some p => drawWord s (mrWord imm c p)

end Sys2Proof.Machine
end

