-- ==== Sys2Proof/Machine/Dispatch.lean ====
section
/-! DEFINITION. The engine's step for each command of the opcode table, one arm per constructor.  Source register numbers
do not reach a meaning: the operands were latched from them at issue (R31, R38). -/

namespace Sys2Proof.Machine

def exec (i : Instr) (s : State) : Host.Outcome State Fault Refusal :=
  match i with
  | .mrtest _ imm => Sys2Proof.Machine.execMrtest imm s
  | .modinv rd _ _ => Sys2Proof.Machine.execModinv rd s
  | .gcd rd _ _ => Sys2Proof.Machine.execGcd rd s
  | .modexp rd _ _ _ => Sys2Proof.Machine.execModexp rd s
  | .modmul rd _ _ _ => Sys2Proof.Machine.execModmul rd s
  | .modred rd _ _ => Sys2Proof.Machine.execModred rd s
  | .cmp _ _ => Sys2Proof.Machine.execCmp s

end Sys2Proof.Machine
end

