-- ==== Sys2Proof/Machine/Window.lean ====
section
/-! DEFINITION. The register window: its map (R51), the host's transactions (R50, R53, R62 to R64) and the host's step. -/

namespace Sys2Proof.Machine

/-- What a mapped offset of the window names (R51). -/
inductive Target where
  | cfg
  | ctrl
  | status
  | errcode
  | cmd
  | limb (i j : Nat)
  deriving DecidableEq, Repr

/-- The window map (R51): `none` is unmapped, a misaligned offset included (R53). -/
def target (nlimbs off : Nat) : Option Target :=
  if off = 0x0000 then some .cfg
  else if off = 0x0004 then some .ctrl
  else if off = 0x0008 then some .status
  else if off = 0x000C then some .errcode
  else if off = 0x0010 then some .cmd
  else if 0x1000 ≤ off ∧ off < Config.windowBytes ∧ off % 4 = 0 ∧ (off - 0x1000) % 0x400 / 4 < nlimbs then
    some (.limb ((off - 0x1000) / 0x400) ((off - 0x1000) % 0x400 / 4))
  else none

/-- The value a mapped offset reads as; a read has no side effect (R54). -/
def State.readTarget (s : State) : Target → Word
  | .cfg => s.cfgWord
  | .ctrl => s.ctrlWord
  | .status => s.statusWord
  | .errcode => s.errcodeWord
  | .cmd => s.cmd
  | .limb i j => s.readLimb i j

/-- The 32-bit word at an offset of the window, `none` where the window has none. -/
def State.windowRead (s : State) (off : Nat) : Option Word := (target s.nlimbs off).map s.readTarget

/-- A dropped write: the target keeps its value and `HOSTERR` is set (R64, R159). -/
def State.dropWrite (s : State) : State := { s with hosterr := true }

/-- The write-1-to-clear of `STATUS` (R27). -/
def State.clearStatus (v : Word) (s : State) : State :=
  { s with done := s.done && !v.getLsbD 1, hosterr := s.hosterr && !v.getLsbD 7 }

/-- A write to a mapped offset: read-only registers ignore it (R24), `CTRL` and `STATUS` act at any time (R26, R27),
`CMD` and the operand limbs act while idle and are dropped while a command is in flight (R29, R63, R64). -/
def State.writeTarget (v : Word) (s : State) : Target → State
  | .cfg => s
  | .ctrl => { s with ie := v.getLsbD 0 }
  | .status => s.clearStatus v
  | .errcode => s
  | .cmd => if s.busy then s.dropWrite else s.issue v
  | .limb i j => if s.busy then s.dropWrite else s.writeLimb i j v

/-- The offset lies in the window (R50); a transaction beyond it is not the block's (R51). -/
def inWindow (off : Nat) : Bool := decide (off < Config.windowBytes)

/-- The target of a supported transaction: size 4 and a mapped, hence aligned, offset (R53). -/
def supported (nlimbs off size : Nat) : Option Target := if size = 4 then target nlimbs off else none

/-- The window's answer to `MemRead(off, size)`; `none` for an offset that is not the block's (R50, R51, R53). -/
def State.readAnswer (s : State) (off size : Nat) : Option BusAnswer :=
  if inWindow off then
    match supported s.nlimbs off size with
    | some t => some (.okData (s.readTarget t))
    | none => some .busError
  else none

/-- The window's answer to `MemWrite(off, size, v)`: a dropped or ignored write answers `Ok` too (R24, R50, R53, R64). -/
def State.writeAnswer (s : State) (off size : Nat) : Option BusAnswer :=
  if inWindow off then
    match supported s.nlimbs off size with
    | some _ => some .ok
    | none => some .busError
  else none

/-- The effect of `MemWrite(off, size, v)` on the block; an unsupported transaction has none (R53). -/
def State.memWrite (off size : Nat) (v : Word) (s : State) : State :=
  match supported s.nlimbs off size with
  | some t => s.writeTarget v t
  | none => s

/-- The host's variable `s` of R79 after a read: the `STATUS` value just read, else what it was. -/
def State.statusSeen (s : State) (off size : Nat) : Word :=
  match supported s.nlimbs off size with
  | some .status => s.statusWord
  | _ => s.seen

/-- The host performs one window transaction (R20, R50); an answer the block gives is recorded (log entry 8). -/
def State.transact (t : Transaction) (s : State) : State :=
  match t with
  | .read off size => { s with answers := (s.readAnswer off size).toList ++ s.answers, seen := s.statusSeen off size }
  | .write off size v => { s.memWrite off size v with answers := (s.writeAnswer off size).toList ++ s.answers }

end Sys2Proof.Machine
end

