-- ==== Sys2Proof/Machine/Engine.lean ====
section
/-! DEFINITION. The engine's step and what each agent's event does (R20, R57). -/

namespace Sys2Proof.Machine

/-- The engine's step.  Idle, it has none and nothing changes (R168); an illegal word in flight completes with
`IllegalCommand` (R152); a command runs its own step (R32, R96). -/
def engineStep (s : State) : Host.Outcome State Fault Refusal :=
  match s.ctx with
  | none => .next s
  | some c =>
    match decode c.word with
    | .command i => exec i s
    | .illegal _ => .next (raise .illegalCommand s)

/-- One read of the `WAIT` loop: `DONE` ends it, else the engine takes a step before the next read (R79). -/
def pollStep (s : State) : State :=
  let t := s.transact (.read 0x0008 4)
  if t.seen.getLsbD 1 then t else { t with agenda := .engine :: .poll :: t.agenda }

/-- What an event does to a state whose agenda it has left. -/
def runEvent (e : Event) (s : State) : Host.Outcome State Fault Refusal :=
  match e with
  | .host t => .next (s.transact t)
  | .engine => engineStep s
  | .source src => .next { s with rnd := src }
  | .reset => .next s.resetBlock
  | .poll => .next (pollStep s)
  | .skip n => .next { s with agenda := s.agenda.drop n }
  | .skipUnless bit want n =>
    .next (if s.seen.getLsbD bit = want then s else { s with agenda := s.agenda.drop n })

/-- The next step in the one total order of steps (R57): the first event of the agenda, or the engine's step. -/
def agendaStep (s : State) : Host.Outcome State Fault Refusal :=
  match s.agenda with
  | [] => engineStep s
  | e :: rest => runEvent e { s with agenda := rest }

/-- `s` as the accepted write of the word `w` to `CMD` leaves it (R31), the engine to act next. -/
def State.withIssued (s : State) (w : Word) : State :=
  { s.issue w with agenda := .engine :: s.agenda }

end Sys2Proof.Machine
end

