-- ==== Sys2Proof/Machine/Step.lean ====
section
/-! DEFINITION. One step of the machine. -/

namespace Sys2Proof.Machine

/-- One step of the machine: the next event of the agenda, or the engine's step when the agenda is empty. -/
def step (s : State) : Host.Outcome State Fault Refusal := agendaStep s

/-- The block fetches nothing (R22): an instruction runs because the host wrote its word to `CMD`.  This is `s` right
after that write, accepted, with the engine's step next (log entry 15). -/
def State.withFetchWord (s : State) (nbits w : Nat) : State :=
  s.withIssued (BitVec.ofNat 32 (w % 2 ^ nbits))

end Sys2Proof.Machine
end

