-- ==== Sys2Proof/Machine/Script.lean ====
section
/-! DEFINITION. The host-script directives of R79 as pieces of an agenda.  They are no commands of the block: each stands
for window transactions of the host or an action of the test bench. -/

namespace Sys2Proof.Machine.Script

/-- The offset of limb `j` of `x[i]` (R51). -/
def limbOffset (i j : Nat) : Nat := 0x1000 + 0x400 * i + 4 * j

/-- `LDX xi, V` for a block of `nlimbs` limbs. -/
def ldx (nlimbs i v : Nat) : List Event :=
  (List.range nlimbs).map fun j => .host (.write (limbOffset i j) 4 (BitVec.ofNat 32 (limb v j)))

/-- `RDX xi` for a block of `nlimbs` limbs. -/
def rdx (nlimbs i : Nat) : List Event :=
  (List.range nlimbs).map fun j => .host (.read (limbOffset i j) 4)

/-- The 32-bit value of a bus answer, if it carries one. -/
def answerWord : BusAnswer → Option Word
  | .okData w => some w
  | .ok => none
  | .busError => none

/-- The value `RDX` gives the host once its reads are done: the sum of `limb_j * 2^(32*j)` over the `nlimbs` answers
just received, limb 0 first (R62, R79). -/
def rdxValue (nlimbs : Nat) (s : State) : Nat :=
  wordsValue ((s.answers.take nlimbs).reverse.filterMap answerWord)

/-- A raw write to `CMD`. -/
def word (w : Word) : List Event := [.host (.write 0x0010 4 w)]

/-- A command line. -/
def command (i : Instr) : List Event := word (encode i)

/-- `WAIT`. -/
def wait : List Event := [.poll]

/-- `RDS`. -/
def rds : List Event := [.host (.read 0x0008 4)]

/-- `RDE`. -/
def rde : List Event := [.host (.read 0x000C 4)]

/-- `ACK`. -/
def ack : List Event := [.host (.write 0x0008 4 0x00000002#32)]

/-- `IEN b`. -/
def ien (b : Word) : List Event := [.host (.write 0x0004 4 b)]

/-- `RND w0, w1, ...`. -/
def rnd (ws : List Word) : List Event := [.source (.exactly ws)]

/-- `IF` (`want` true) or `IF NOT` (`want` false) on a bit of the last `STATUS` value read, with both branches:
`EQ` is bit 4, `LT` bit 5, `PRIME` bit 6, `ERR` bit 2. -/
def ifFlag (bit : Nat) (want : Bool) (yes no : List Event) : List Event :=
  [.skipUnless bit want (yes.length + 1)] ++ yes ++ [.skip no.length] ++ no

end Sys2Proof.Machine.Script
end

