-- ==== Sys2Proof/Safety.lean ====
section
/-! DEFINITION. The invariant of the machine (R21, R30, R31, R137, R150), the premises a claim about a run takes (R190)
and the end of a run (R189).  The block has no unsafe outcome of its own: its errors are reported (R162), so a run is
safe when the invariant holds and, where a claim asks for it, no host protocol fault was recorded (R159). -/

namespace Sys2Proof.Machine

/-- The command in flight agrees with the rest of the state (R30, R31). -/
structure CtxInv (s : State) (c : Ctx) : Prop where
  /-- `word` is equal to `CMD` (R30). -/
  word_eq_cmd : c.word = s.cmd
  /-- The latched operands are the registers' values: a register cannot change while a command is in flight (R64). -/
  va_latched : c.va = s.readX (raField c.word)
  vb_latched : c.vb = s.readX (rbField c.word)
  vm_latched : c.vm = s.readX (rmField c.word)
  /-- The engine waits for words exactly when issue found that the command needs witnesses (R27, R31). -/
  draws_iff : c.mr.isSome = needsWitness c.word c.va
  /-- The progress is within its bounds: `0 <= i < imm` and `length(buf) < nw` (R30). -/
  progress : ∀ p, c.mr = some p → p.i < immField c.word ∧ p.buf.length < candidateWords c.va

/-- The invariant that every step keeps and that holds at reset. -/
structure Invariant (s : State) : Prop where
  /-- `W` is a width R5 admits. -/
  limbs : Config.LegalLimbs s.nlimbs
  /-- Every operand register holds an unsigned `W`-bit integer (R21). -/
  regs : ∀ i < 8, s.readX i < 2 ^ Config.width s.nlimbs
  /-- `BUSY` is 1 exactly when a command is in flight (R30). -/
  busy_iff : s.busy = s.ctx.isSome
  /-- `DONE` and `CODE` were cleared at issue and stay 0 until the completion (R27, R28, R31). -/
  clear_in_flight : s.busy = true → s.done = false ∧ s.code = 0#4
  /-- `CODE` is 0 or the code of a kind the block raises (R150). -/
  code_raised : s.code = 0#4 ∨ s.code = 1#4 ∨ s.code = 2#4 ∨ s.code = 6#4 ∨ s.code = 7#4
  /-- `EQ = 1, LT = 1` never occurs (R137). -/
  flags_exclusive : ¬ (s.eq = true ∧ s.lt = true)
  /-- The command in flight. -/
  ctx_inv : ∀ c, s.ctx = some c → CtxInv s c

/-- P-IDLE of R190, without the registers' values: idle, and no host protocol fault recorded. -/
def Idle (s : State) : Prop := s.busy = false ∧ s.hosterr = false

/-- The number of accepted candidates among the words, of at most `fuel` candidates (R93, R185). -/
def acceptedLoop (n : Nat) : Nat → List Word → Nat
  | 0, _ => 0
  | fuel + 1, ws =>
    if ws.length < candidateWords n then 0
    else (if accepted n (ws.take (candidateWords n)) then 1 else 0) + acceptedLoop n fuel (ws.drop (candidateWords n))

/-- The number of accepted candidates for `n` in a word sequence (R185). -/
def acceptedCandidates (n : Nat) (ws : List Word) : Nat := acceptedLoop n ws.length ws

/-- P-ENTROPY of R190 for one `MRTEST`: the words hold at least `rounds` accepted candidates for `n`. -/
def EntropyEnough (n rounds : Nat) (ws : List Word) : Prop := rounds ≤ acceptedCandidates n ws

/-- The end of a host script: no event is left and no command is in flight (R189). -/
def Ended (s : State) : Prop := s.agenda = [] ∧ s.busy = false

end Sys2Proof.Machine
end

