-- ==== Sys2Proof/Certificates/Slice0/Obligations.lean ====
section
/-! DEFINITION. The statements about this machine for the provers.  Each docstring names the rule of spec/ a statement
comes from; a clause that rests on a choice of the model names the log entry. -/

open Sys2Proof Sys2Proof.Machine

/-! ## Encoding -/

/-- R77: on every command whose register numbers are in `0..7` and whose round count is in `0..4095`, decoding the
encoding gives the command back, with every operand; a word that decodes to a command is that command's encoding, and the
command is well formed; so no two words decode to one command. -/
def Obligations.DecodeAndEncodeAgree : Prop :=
  (∀ i : Instr, i.WellFormed → decode (encode i) = .command i) ∧
  (∀ (w : Word) (i : Instr), decode w = .command i → i.WellFormed ∧ encode i = w) ∧
  (∀ (v w : Word) (i : Instr), decode v = .command i → decode w = .command i → v = w)

/-- R74: a word is a command exactly when its masked bits equal the row's match value; the decoder gives that row's
command, with the operands R71 places. -/
def Obligations.DecodeFollowsTheOpcodeTable : Prop :=
  ∀ w : Word,
    (w &&& 0x000FF8FF#32 = 0x00000001#32 ↔
      decode w = .command (.mrtest (w.toNat / 2 ^ 8 % 8) (w.toNat / 2 ^ 20 % 4096))) ∧
    (w &&& 0xFFF8F88F#32 = 0x00000002#32 ↔
      decode w = .command (.modinv (w.toNat / 2 ^ 4 % 8) (w.toNat / 2 ^ 8 % 8) (w.toNat / 2 ^ 16 % 8))) ∧
    (w &&& 0xFFFF888F#32 = 0x00000003#32 ↔
      decode w = .command (.gcd (w.toNat / 2 ^ 4 % 8) (w.toNat / 2 ^ 8 % 8) (w.toNat / 2 ^ 12 % 8))) ∧
    (w &&& 0xFFF8888F#32 = 0x00000004#32 ↔
      decode w = .command (.modexp (w.toNat / 2 ^ 4 % 8) (w.toNat / 2 ^ 8 % 8) (w.toNat / 2 ^ 12 % 8)
        (w.toNat / 2 ^ 16 % 8))) ∧
    (w &&& 0xFFF8888F#32 = 0x00000005#32 ↔
      decode w = .command (.modmul (w.toNat / 2 ^ 4 % 8) (w.toNat / 2 ^ 8 % 8) (w.toNat / 2 ^ 12 % 8)
        (w.toNat / 2 ^ 16 % 8))) ∧
    (w &&& 0xFFF8F88F#32 = 0x00000006#32 ↔
      decode w = .command (.modred (w.toNat / 2 ^ 4 % 8) (w.toNat / 2 ^ 8 % 8) (w.toNat / 2 ^ 16 % 8))) ∧
    (w &&& 0xFFFF88FF#32 = 0x00000007#32 ↔
      decode w = .command (.cmp (w.toNat / 2 ^ 8 % 8) (w.toNat / 2 ^ 12 % 8)))

/-- R75: a word is illegal exactly when its opcode is 0 or at least 8, a reserved bit is 1, or a field its command does
not use (R72) is not 0. -/
def Obligations.IllegalWordsAreExactlyThese : Prop :=
  ∀ w : Word, (∃ why, decode w = .illegal why) ↔
    (let n := w.toNat
     let op := n % 16
     op = 0 ∨ 8 ≤ op ∨ n / 2 ^ 7 % 2 = 1 ∨ n / 2 ^ 11 % 2 = 1 ∨ n / 2 ^ 15 % 2 = 1 ∨ n / 2 ^ 19 % 2 = 1 ∨
     (n / 2 ^ 4 % 8 ≠ 0 ∧ (op = 1 ∨ op = 7)) ∨
     (n / 2 ^ 12 % 8 ≠ 0 ∧ (op = 1 ∨ op = 2 ∨ op = 6)) ∨
     (n / 2 ^ 16 % 8 ≠ 0 ∧ (op = 1 ∨ op = 3 ∨ op = 7)) ∨
     (n / 2 ^ 20 % 4096 ≠ 0 ∧ op ≠ 1))

/-- Words of the spec's own table of encodings (95_test_vectors B1), each decoding to the command beside it there; three
illegal words, each rejected by the first check of R77 that it fails (a word can be illegal for several reasons). -/
def Obligations.SpecWordsDecodeAsListed : Prop :=
  decode 0x02800001#32 = .command (.mrtest 0 40) ∧ decode 0xFFF00701#32 = .command (.mrtest 7 4095) ∧
  decode 0x00010022#32 = .command (.modinv 2 0 1) ∧ decode 0x00001023#32 = .command (.gcd 2 0 1) ∧
  decode 0x00032454#32 = .command (.modexp 5 4 2 3) ∧ decode 0x00045555#32 = .command (modsqr 5 5 4) ∧
  decode 0x00020016#32 = .command (.modred 1 0 2) ∧ decode 0x00004607#32 = .command (.cmp 6 4) ∧
  decode 0x00000000#32 = .illegal .unknownOpcode ∧ decode 0xFFFFFFFF#32 = .illegal .reservedBit ∧
  decode 0x00010001#32 = .illegal .unusedField

/-! ## Issue and the step -/

/-- R31: the host's write of any word to `CMD` while idle issues it in that step: `CMD`, `CODE`, `DONE`, `BUSY` and the
context with the latched operands, and nothing else of the block; it answers `Ok`. -/
def Obligations.CmdWriteWhileIdleIssues : Prop :=
  ∀ (s : State) (w : Word) (rest : List Event), s.busy = false → s.agenda = .host (.write 0x0010 4 w) :: rest →
    ∃ m, step s = .next { s with
        cmd := w, code := 0#4, done := false, busy := true,
        ctx := some { word := w, va := s.readX (w.toNat / 2 ^ 8 % 8), vb := s.readX (w.toNat / 2 ^ 12 % 8),
                      vm := s.readX (w.toNat / 2 ^ 16 % 8), mr := m },
        agenda := rest, answers := .ok :: s.answers } ∧
      ((∃ ra imm, decode w = .command (.mrtest ra imm) ∧ imm ≠ 0 ∧ s.readX ra % 2 = 1 ∧ 5 ≤ s.readX ra) →
        m = some { i := 0, buf := [] }) ∧
      ((¬ ∃ ra imm, decode w = .command (.mrtest ra imm) ∧ imm ≠ 0 ∧ s.readX ra % 2 = 1 ∧ 5 ≤ s.readX ra) →
        m = none)

/-- A step of the machine, when it is the engine's turn, is the decoded command's own step.  It is the engine's turn when
the agenda is empty or begins with the engine's event, which the step removes (log entry 2). -/
def Obligations.StepRunsTheDecodedCommand : Prop :=
  ∀ (s : State) (c : Ctx) (i : Instr) (rest : List Event), s.ctx = some c → decode c.word = .command i →
    (s.agenda = [] → step s = exec i s) ∧
    (s.agenda = .engine :: rest → step s = exec i { s with agenda := rest })

/-- The word the host places runs in the very next step, as the command it decodes to (log entry 15). -/
def Obligations.PlacedWordRunsNext : Prop :=
  ∀ (s : State) (w : Word) (i : Instr), decode w = .command i →
    step (s.withFetchWord 32 w.toNat) = exec i (s.issue w)

/-- R152: an illegal word in flight completes with `IllegalCommand` at the engine's step, whatever the latched values:
`CODE` is 7, the command is done, no register and no flag is written and no entropy word is drawn.  It is the engine's
turn when the agenda is empty or begins with the engine's event (log entry 2). -/
def Obligations.IllegalWordCompletesWithIllegalCommand : Prop :=
  ∀ (s : State) (c : Ctx) (why : IllegalReason) (rest : List Event), s.ctx = some c → decode c.word = .illegal why →
    (s.agenda = [] → step s = .next { s with code := 7#4, busy := false, done := true, ctx := none }) ∧
    (s.agenda = .engine :: rest →
      step s = .next { s with code := 7#4, busy := false, done := true, ctx := none, agenda := rest })

/-! ## What each command does -/

/-- R111, R110: `GCD` writes the greatest common divisor, or raises `InvalidArgument` when an input is 0; nothing else
changes but the end of the command. -/
def Obligations.GcdWritesTheGreatestCommonDivisor : Prop :=
  ∀ (s : State) (c : Ctx) (rd ra rb : Nat) (h : rd < 8), s.ctx = some c → c.mr = none →
    ((c.va = 0 ∨ c.vb = 0) → exec (.gcd rd ra rb) s =
      .next { s with code := 1#4, busy := false, done := true, ctx := none }) ∧
    ((c.va ≠ 0 ∧ c.vb ≠ 0) → exec (.gcd rd ra rb) s =
      .next { s with x := s.x.set rd (Nat.gcd c.va c.vb) h, busy := false, done := true, ctx := none })

/-- R113: `MODINV` raises `InvalidArgument` on a zero modulus, then `NotInvertible` when the operands are not coprime,
else writes the one `r` in `[0, m)` with `(b * r) mod m == 1 mod m`; nothing else changes but the end of the command. -/
def Obligations.ModinvWritesTheInverse : Prop :=
  ∀ (s : State) (c : Ctx) (rd ra rm : Nat) (h : rd < 8), s.ctx = some c → c.mr = none →
    (c.vm = 0 → exec (.modinv rd ra rm) s =
      .next { s with code := 1#4, busy := false, done := true, ctx := none }) ∧
    (c.vm ≠ 0 → Nat.gcd c.va c.vm ≠ 1 → exec (.modinv rd ra rm) s =
      .next { s with code := 2#4, busy := false, done := true, ctx := none }) ∧
    (c.vm ≠ 0 → Nat.gcd c.va c.vm = 1 →
      ∃ r, r < c.vm ∧ c.va * r % c.vm = 1 % c.vm ∧
        (∀ r', r' < c.vm → c.va * r' % c.vm = 1 % c.vm → r' = r) ∧
        exec (.modinv rd ra rm) s =
          .next { s with x := s.x.set rd r h, busy := false, done := true, ctx := none })

/-- R126: `MODEXP` raises `InvalidBlock` when the block is not below the modulus, a zero modulus included, else writes
the power modulo the modulus; nothing else changes but the end of the command. -/
def Obligations.ModexpWritesThePower : Prop :=
  ∀ (s : State) (c : Ctx) (rd ra rb rm : Nat) (h : rd < 8), s.ctx = some c → c.mr = none →
    (c.vm ≤ c.va → exec (.modexp rd ra rb rm) s =
      .next { s with code := 6#4, busy := false, done := true, ctx := none }) ∧
    (c.va < c.vm → exec (.modexp rd ra rb rm) s =
      .next { s with x := s.x.set rd (c.va ^ c.vb % c.vm) h, busy := false, done := true, ctx := none })

/-- R135: `MODMUL` raises `InvalidArgument` on a zero modulus, else writes the remainder of the exact product; nothing
else changes but the end of the command. -/
def Obligations.ModmulWritesTheReducedProduct : Prop :=
  ∀ (s : State) (c : Ctx) (rd ra rb rm : Nat) (h : rd < 8), s.ctx = some c → c.mr = none →
    (c.vm = 0 → exec (.modmul rd ra rb rm) s =
      .next { s with code := 1#4, busy := false, done := true, ctx := none }) ∧
    (c.vm ≠ 0 → exec (.modmul rd ra rb rm) s =
      .next { s with x := s.x.set rd (c.va * c.vb % c.vm) h, busy := false, done := true, ctx := none })

/-- R136: `MODRED` raises `InvalidArgument` on a zero modulus, else writes the remainder; nothing else changes but the
end of the command. -/
def Obligations.ModredWritesTheRemainder : Prop :=
  ∀ (s : State) (c : Ctx) (rd ra rm : Nat) (h : rd < 8), s.ctx = some c → c.mr = none →
    (c.vm = 0 → exec (.modred rd ra rm) s =
      .next { s with code := 1#4, busy := false, done := true, ctx := none }) ∧
    (c.vm ≠ 0 → exec (.modred rd ra rm) s =
      .next { s with x := s.x.set rd (c.va % c.vm) h, busy := false, done := true, ctx := none })

/-- R137: `CMP` writes `EQ` and `LT` of the unsigned comparison and nothing else but the end of the command. -/
def Obligations.CmpWritesEqAndLt : Prop :=
  ∀ (s : State) (c : Ctx) (ra rb : Nat), s.ctx = some c → c.mr = none →
    exec (.cmp ra rb) s = .next { s with
      eq := decide (c.va = c.vb), lt := decide (c.va < c.vb), busy := false, done := true, ctx := none }

/-- R91: the checks of `MRTEST` before any witness is drawn, in their order; each completes the command in one step, draws
no word and changes nothing but `PRIME` or `CODE` and the end of the command. -/
def Obligations.MrtestChecksBeforeAnyWitness : Prop :=
  ∀ (s : State) (c : Ctx) (ra imm : Nat), s.ctx = some c → c.mr = none →
    (imm = 0 → exec (.mrtest ra imm) s =
      .next { s with code := 1#4, busy := false, done := true, ctx := none }) ∧
    (imm ≠ 0 → c.va < 2 → exec (.mrtest ra imm) s =
      .next { s with prime := false, busy := false, done := true, ctx := none }) ∧
    (imm ≠ 0 → c.va = 2 → exec (.mrtest ra imm) s =
      .next { s with prime := true, busy := false, done := true, ctx := none }) ∧
    (imm ≠ 0 → 2 < c.va → c.va % 2 = 0 → exec (.mrtest ra imm) s =
      .next { s with prime := false, busy := false, done := true, ctx := none }) ∧
    (imm ≠ 0 → c.va = 3 → exec (.mrtest ra imm) s =
      .next { s with prime := true, busy := false, done := true, ctx := none })

/-- R96, R93, R94: the step `MR_WORD(w)` on the word `w` on offer: an incomplete candidate is kept, a rejected one is
discarded with no round counted, a failing round commits 0, the last passing round commits 1, any other passing round is
counted; the word leaves the port.  With no word on offer the engine holds; that the step given to it there changes
nothing is the model's way to say that it has none (log entry 5). -/
def Obligations.MrtestTakesOneWordAStep : Prop :=
  ∀ (s : State) (c : Ctx) (p : MrProgress) (ra imm : Nat), s.ctx = some c → c.mr = some p →
    (s.rnd.next = none → exec (.mrtest ra imm) s = .next s) ∧
    (∀ (w : Word) (src : Source) (buf : List Word) (k v : Nat), s.rnd.next = some (w, src) → buf = p.buf ++ [w] →
      k = bitlen (c.va - 4) → v = wordsValue buf % 2 ^ k →
      (buf.length < (k + 31) / 32 → exec (.mrtest ra imm) s =
        .next { s with rnd := src, ctx := some { c with mr := some { i := p.i, buf := buf } } }) ∧
      ((k + 31) / 32 ≤ buf.length → c.va - 4 < v → exec (.mrtest ra imm) s =
        .next { s with rnd := src, ctx := some { c with mr := some { i := p.i, buf := [] } } }) ∧
      ((k + 31) / 32 ≤ buf.length → v ≤ c.va - 4 → mrRound c.va (v + 2) = false → exec (.mrtest ra imm) s =
        .next { s with rnd := src, prime := false, busy := false, done := true, ctx := none }) ∧
      ((k + 31) / 32 ≤ buf.length → v ≤ c.va - 4 → mrRound c.va (v + 2) = true → p.i + 1 = imm →
        exec (.mrtest ra imm) s =
          .next { s with rnd := src, prime := true, busy := false, done := true, ctx := none }) ∧
      ((k + 31) / 32 ≤ buf.length → v ≤ c.va - 4 → mrRound c.va (v + 2) = true → p.i + 1 ≠ imm →
        exec (.mrtest ra imm) s =
          .next { s with rnd := src, ctx := some { c with mr := some { i := p.i + 1, buf := [] } } }))

/-! ## Frames -/

/-- The frame of the five commands that write a register (R38): only `x[rd]`, `CODE` and the end of the command may
change; every offset of the window outside `STATUS`, `ERRCODE` and the limbs of `x[rd]` reads as before; of `STATUS` only
`BUSY`, `DONE`, `ERR` and `RNDWAIT` may change; the entropy port is not touched. -/
def Obligations.RegisterCommandsChangeOnlyTheirDestination : Prop :=
  ∀ (s t : State) (i : Instr) (rd a b m : Nat),
    (i = .modinv rd a m ∨ i = .gcd rd a b ∨ i = .modexp rd a b m ∨ i = .modmul rd a b m ∨ i = .modred rd a m) →
    exec i s = .next t →
    (∀ j, j ≠ rd → t.readX j = s.readX j) ∧
    (t.ie = s.ie ∧ t.eq = s.eq ∧ t.lt = s.lt ∧ t.prime = s.prime ∧ t.hosterr = s.hosterr ∧ t.cmd = s.cmd ∧
      t.nlimbs = s.nlimbs) ∧
    (t.rnd = s.rnd ∧ t.agenda = s.agenda ∧ t.answers = s.answers ∧ t.seen = s.seen) ∧
    (∀ k, 4 ≤ k → t.statusWord.getLsbD k = s.statusWord.getLsbD k) ∧
    (∀ off, off ≠ 0x0008 → off ≠ 0x000C → (∀ j, j < s.nlimbs → off ≠ 0x1000 + 0x400 * rd + 4 * j) →
      t.windowRead off = s.windowRead off)

/-- The frame of `CMP` and `MRTEST` (R38, R97, R137): no operand register changes, every offset of the window but `STATUS`
and `ERRCODE` reads as before, `CMP` leaves `PRIME`, `CODE` and the entropy port alone and `MRTEST` leaves `EQ` and `LT`. -/
def Obligations.FlagCommandsChangeNoRegister : Prop :=
  ∀ (s t : State) (i : Instr) (ra rb imm : Nat), (i = .cmp ra rb ∨ i = .mrtest ra imm) → exec i s = .next t →
    (t.x = s.x ∧ t.ie = s.ie ∧ t.hosterr = s.hosterr ∧ t.cmd = s.cmd ∧ t.nlimbs = s.nlimbs ∧
      t.agenda = s.agenda ∧ t.answers = s.answers ∧ t.seen = s.seen) ∧
    (i = .cmp ra rb → t.prime = s.prime ∧ t.code = s.code ∧ t.rnd = s.rnd) ∧
    (i = .mrtest ra imm → t.eq = s.eq ∧ t.lt = s.lt) ∧
    (∀ k, 8 ≤ k → t.statusWord.getLsbD k = s.statusWord.getLsbD k) ∧
    (∀ off, off ≠ 0x0008 → off ≠ 0x000C → t.windowRead off = s.windowRead off)

/-- Any two fields of a command may name one register (R140): for every well-formed command that writes a register, issued
and then completed with nothing between, the outcome is the contract's on the registers' values before the issue, whatever
the register numbers; every other register is unchanged, and on an error all are. -/
def Obligations.IssueThenCompleteComputesTheContract : Prop :=
  ∀ (s : State) (i : Instr) (rest : List Event), i.WellFormed → s.busy = false →
    s.agenda = .host (.write 0x0010 4 (encode i)) :: .engine :: rest →
    ∃ t u, step s = .next t ∧ step t = .next u ∧
      (match i with
       | .gcd rd ra rb =>
         u.busy = false ∧ u.done = true ∧ (∀ j, j ≠ rd → u.readX j = s.readX j) ∧
         (if s.readX ra = 0 ∨ s.readX rb = 0 then u.code = 1#4 ∧ u.x = s.x
          else u.code = 0#4 ∧ u.readX rd = Nat.gcd (s.readX ra) (s.readX rb))
       | .modinv rd ra rm =>
         u.busy = false ∧ u.done = true ∧ (∀ j, j ≠ rd → u.readX j = s.readX j) ∧
         (if s.readX rm = 0 then u.code = 1#4 ∧ u.x = s.x
          else if Nat.gcd (s.readX ra) (s.readX rm) ≠ 1 then u.code = 2#4 ∧ u.x = s.x
          else u.code = 0#4 ∧ u.readX rd < s.readX rm ∧ s.readX ra * u.readX rd % s.readX rm = 1 % s.readX rm)
       | .modexp rd ra rb rm =>
         u.busy = false ∧ u.done = true ∧ (∀ j, j ≠ rd → u.readX j = s.readX j) ∧
         (if s.readX rm ≤ s.readX ra then u.code = 6#4 ∧ u.x = s.x
          else u.code = 0#4 ∧ u.readX rd = s.readX ra ^ s.readX rb % s.readX rm)
       | .modmul rd ra rb rm =>
         u.busy = false ∧ u.done = true ∧ (∀ j, j ≠ rd → u.readX j = s.readX j) ∧
         (if s.readX rm = 0 then u.code = 1#4 ∧ u.x = s.x
          else u.code = 0#4 ∧ u.readX rd = s.readX ra * s.readX rb % s.readX rm)
       | .modred rd ra rm =>
         u.busy = false ∧ u.done = true ∧ (∀ j, j ≠ rd → u.readX j = s.readX j) ∧
         (if s.readX rm = 0 then u.code = 1#4 ∧ u.x = s.x
          else u.code = 0#4 ∧ u.readX rd = s.readX ra % s.readX rm)
       | .cmp ra rb =>
         u.busy = false ∧ u.done = true ∧ u.code = 0#4 ∧ u.x = s.x ∧
         u.eq = decide (s.readX ra = s.readX rb) ∧ u.lt = decide (s.readX ra < s.readX rb)
       | .mrtest ra imm =>
         u.x = s.x ∧
         (if imm = 0 then u.busy = false ∧ u.done = true ∧ u.code = 1#4 ∧ u.prime = s.prime
          else if s.readX ra < 5 ∨ s.readX ra % 2 = 0 then
            u.busy = false ∧ u.done = true ∧ u.code = 0#4 ∧ u.prime = decide (s.readX ra = 2 ∨ s.readX ra = 3)
          else t.rndwait = true ∧ u.code = 0#4))

/-! ## Errors -/

/-- R151: which command raises what, and exactly when, on the values latched at issue; `CMP` raises nothing. -/
def Obligations.ErrorsAreRaisedExactlyWhenListed : Prop :=
  ∀ (s : State) (c : Ctx) (i : Instr), Invariant s → s.ctx = some c → decode c.word = .command i →
    ∃ t, exec i s = .next t ∧ t.code =
      (match i with
       | .mrtest _ imm => if imm = 0 then 1#4 else 0#4
       | .modinv _ _ _ => if c.vm = 0 then 1#4 else if Nat.gcd c.va c.vm ≠ 1 then 2#4 else 0#4
       | .gcd _ _ _ => if c.va = 0 ∨ c.vb = 0 then 1#4 else 0#4
       | .modexp _ _ _ _ => if c.vm ≤ c.va then 6#4 else 0#4
       | .modmul _ _ _ _ => if c.vm = 0 then 1#4 else 0#4
       | .modred _ _ _ => if c.vm = 0 then 1#4 else 0#4
       | .cmp _ _ => 0#4)

/-- R153, R154: when the engine's step leaves an error code, it has written that code, ended the command and changed
nothing else: no register, no flag, no entropy word. -/
def Obligations.AnErrorChangesNothingElse : Prop :=
  ∀ (s t : State) (rest : List Event), Invariant s → s.busy = true → step s = .next t → t.code ≠ 0#4 →
    (s.agenda = [] → t = { s with code := t.code, busy := false, done := true, ctx := none }) ∧
    (s.agenda = .engine :: rest →
      t = { s with code := t.code, busy := false, done := true, ctx := none, agenda := rest })

/-! ## The window -/

/-- R62: reading limb `j` of `x[i]` answers `Ok(limb(x[i], j))` at any time and changes nothing of the block; the answer on
the bus is the model's own field (log entry 8).  With the rule's example. -/
def Obligations.LimbReadAnswersTheLimb : Prop :=
  (∀ (s : State) (i j : Nat) (rest : List Event), Config.LegalLimbs s.nlimbs → i < 8 → j < s.nlimbs →
    s.agenda = .host (.read (0x1000 + 0x400 * i + 4 * j) 4) :: rest →
    step s = .next { s with
      agenda := rest, answers :=
      .okData (BitVec.ofNat 32 (s.readX i / 2 ^ (32 * j) % 2 ^ 32)) :: s.answers }) ∧
  (∀ s : State, s.nlimbs = 2 → s.readX 2 = 0x0000000100000002 →
    s.windowRead 0x1800 = some 0x00000002#32 ∧ s.windowRead 0x1804 = some 0x00000001#32)

/-- R63: writing limb `j` of `x[i]` while idle replaces that limb, leaves the other limbs and everything else alone and
answers `Ok`. -/
def Obligations.LimbWriteWhileIdleReplacesOneLimb : Prop :=
  ∀ (s : State) (i j : Nat) (v : Word) (rest : List Event) (h : i < 8),
    Config.LegalLimbs s.nlimbs → j < s.nlimbs → s.busy = false →
    s.agenda = .host (.write (0x1000 + 0x400 * i + 4 * j) 4 v) :: rest →
    ∃ n, step s = .next { s with x := s.x.set i n h, agenda := rest, answers := .ok :: s.answers } ∧
      n = s.readX i - s.readX i / 2 ^ (32 * j) % 2 ^ 32 * 2 ^ (32 * j) + v.toNat * 2 ^ (32 * j) ∧
      n / 2 ^ (32 * j) % 2 ^ 32 = v.toNat ∧
      (∀ k, k ≠ j → n / 2 ^ (32 * k) % 2 ^ 32 = s.readX i / 2 ^ (32 * k) % 2 ^ 32)

/-- R79, R63: the directive `LDX xi, V`, run on an idle block, loads `V < 2^W` into `x[i]` and changes nothing else of the
block, one limb write a step. -/
def Obligations.LdxLoadsTheValue : Prop :=
  ∀ (s : State) (i v : Nat) (rest : List Event) (h : i < 8), Invariant s → s.busy = false →
    v < 2 ^ Config.width s.nlimbs → s.agenda = Script.ldx s.nlimbs i v ++ rest →
    Host.Core.run core s.nlimbs s =
      .next ({ s with x := s.x.set i v h, agenda := rest,
                      answers := List.replicate s.nlimbs .ok ++ s.answers } : State)

/-- R64: while a command is in flight, a write to `CMD` or to a mapped operand limb is dropped: `HOSTERR` is set, `Ok` is
answered, and nothing else changes. -/
def Obligations.WritesWhileBusyAreDropped : Prop :=
  ∀ (s : State) (off : Nat) (v : Word) (rest : List Event), Config.LegalLimbs s.nlimbs → s.busy = true →
    (off = 0x0010 ∨ ∃ i j, i < 8 ∧ j < s.nlimbs ∧ off = 0x1000 + 0x400 * i + 4 * j) →
    s.agenda = .host (.write off 4 v) :: rest →
    step s = .next { s with hosterr := true, agenda := rest, answers := .ok :: s.answers }

/-- R53: a transaction inside the window of another size than 4, misaligned, or at an offset the map of R51 does not list
answers `BusError` and changes no state of the block. -/
def Obligations.UnsupportedTransactionsChangeNothing : Prop :=
  ∀ (s : State) (off size : Nat) (v : Word) (rest : List Event), Config.LegalLimbs s.nlimbs → off < 0x3000 →
    (size ≠ 4 ∨ off % 4 ≠ 0 ∨
      (0x0014 ≤ off ∧ ¬ ∃ i j, i < 8 ∧ j < s.nlimbs ∧ off = 0x1000 + 0x400 * i + 4 * j)) →
    (s.agenda = .host (.read off size) :: rest →
      step s = .next { s with agenda := rest, answers := .busError :: s.answers }) ∧
    (s.agenda = .host (.write off size v) :: rest →
      step s = .next { s with agenda := rest, answers := .busError :: s.answers })

/-- R26: `CTRL` reads as `IE` under 31 zeros and is written at any time, also while a command is in flight: the write sets
`IE` to bit 0 of the value and nothing else. -/
def Obligations.CtrlHoldsTheInterruptEnable : Prop :=
  ∀ (s : State) (v : Word) (rest : List Event),
    (s.windowRead 0x0004 = some (if s.ie then 1#32 else 0#32)) ∧
    (s.agenda = .host (.write 0x0004 4 v) :: rest →
      step s = .next { s with ie := v.getLsbD 0, agenda := rest, answers := .ok :: s.answers }) ∧
    State.reset.ie = false

/-- R27: the bits of `STATUS`, and its write: 1 in bit 1 clears `DONE`, 1 in bit 7 clears `HOSTERR`, every other bit is
ignored. -/
def Obligations.StatusShowsTheFlagsAndClearsTwo : Prop :=
  ∀ (s : State) (v : Word) (rest : List Event),
    (∃ w, s.windowRead 0x0008 = some w ∧
      w.getLsbD 0 = s.busy ∧ w.getLsbD 1 = s.done ∧ w.getLsbD 2 = decide (s.code ≠ 0#4) ∧
      (w.getLsbD 3 = true ↔ ∃ c p, s.ctx = some c ∧ c.mr = some p) ∧ w.getLsbD 4 = s.eq ∧ w.getLsbD 5 = s.lt ∧
      w.getLsbD 6 = s.prime ∧ w.getLsbD 7 = s.hosterr ∧ (∀ k, 8 ≤ k → w.getLsbD k = false)) ∧
    (s.agenda = .host (.write 0x0008 4 v) :: rest →
      step s = .next { s with
        done := if v.getLsbD 1 then false else s.done, hosterr := if v.getLsbD 7 then false else s.hosterr,
        agenda := rest, answers := .ok :: s.answers })

/-- R25: `CFG` reads as the version, the register count and `NLIMBS`, ignores writes and never changes, not even at
reset.  With the rule's example. -/
def Obligations.CfgIsConstant : Prop :=
  (∀ s : State, Config.LegalLimbs s.nlimbs →
    s.windowRead 0x0000 = some (BitVec.ofNat 32 (s.nlimbs + 8 * 2 ^ 16 + 1 * 2 ^ 24))) ∧
  (∀ (s : State) (v : Word) (rest : List Event), s.agenda = .host (.write 0x0000 4 v) :: rest →
    step s = .next { s with agenda := rest, answers := .ok :: s.answers }) ∧
  (∀ s t : State, step s = .next t → t.windowRead 0x0000 = s.windowRead 0x0000) ∧
  (∀ s : State, s.nlimbs = 2 → s.windowRead 0x0000 = some 0x01080002#32)

/-- R28, R29: `ERRCODE` reads as `CODE` under 28 zeros and ignores writes; `CMD` reads as the last accepted word. -/
def Obligations.ErrcodeAndCmdRead : Prop :=
  ∀ (s : State) (v : Word) (rest : List Event),
    (s.windowRead 0x000C = some (BitVec.ofNat 32 s.code.toNat) ∧ s.windowRead 0x0010 = some s.cmd) ∧
    (s.agenda = .host (.write 0x000C 4 v) :: rest →
      step s = .next { s with agenda := rest, answers := .ok :: s.answers })

/-- R54: a read of the window changes nothing but the record of bus answers and the host's own record of the last `STATUS`
value it read (log entry 8); at a mapped offset it answers the value there. -/
def Obligations.ReadsHaveNoSideEffect : Prop :=
  ∀ (s : State) (off size : Nat) (rest : List Event), s.agenda = .host (.read off size) :: rest →
    ∃ a n, step s = .next { s with agenda := rest, answers := a, seen := n } ∧
      (size = 4 → ∀ w, s.windowRead off = some w → a = .okData w :: s.answers)

/-- R33, R65, R156: `irq` is `CTRL.IE and STATUS.DONE` at every moment, read through the window, and `rnd_ready` is
`STATUS.RNDWAIT`. -/
def Obligations.WiresFollowTheRegisters : Prop :=
  ∀ s : State, ∃ ctrl status, s.windowRead 0x0004 = some ctrl ∧ s.windowRead 0x0008 = some status ∧
    s.irq = (ctrl.getLsbD 0 && status.getLsbD 1) ∧ s.rndReady = status.getLsbD 3

/-! ## Reset -/

/-- R180, R181, R37: reset, in any state, gives every piece of the block's state its reset value and abandons a command in
flight.  That the source's words, the agenda and what the host has read stay is the model's choice (log entry 4). -/
def Obligations.ResetClearsTheBlock : Prop :=
  ∀ (s : State) (rest : List Event), s.agenda = .reset :: rest →
    step s = .next {
      nlimbs := s.nlimbs, x := Vector.replicate 8 0, ie := false, busy := false, done := false, eq := false,
      lt := false, prime := false, hosterr := false, code := 0#4, cmd := 0#32, ctx := none,
      rnd := s.rnd, agenda := rest, answers := s.answers, seen := s.seen }

/-- R37: every piece of the block's state has its reset value, at every width R5 admits; `CFG` shows the width and the
constants of R25.  That `State.reset` is the 64-bit block is the model's choice (log entry 1). -/
def Obligations.StateAfterReset : Prop :=
  (∀ nlimbs, Config.LegalLimbs nlimbs →
    (∀ i, i < 8 → (State.resetOf nlimbs).readX i = 0) ∧
    (State.resetOf nlimbs).cfgWord = BitVec.ofNat 32 (nlimbs + 8 * 2 ^ 16 + 1 * 2 ^ 24) ∧
    (State.resetOf nlimbs).ctrlWord = 0#32 ∧ (State.resetOf nlimbs).statusWord = 0#32 ∧
    (State.resetOf nlimbs).errcodeWord = 0#32 ∧ (State.resetOf nlimbs).cmd = 0#32 ∧
    (State.resetOf nlimbs).ctx = none ∧ (State.resetOf nlimbs).irq = false ∧
    (State.resetOf nlimbs).rndReady = false) ∧
  State.reset = State.resetOf 2

/-! ## Invariants and whole-machine rules -/

/-- The invariant (R21, R30, R31, R137, R150) holds after reset, at every admitted width. -/
def Obligations.InvariantHoldsAtReset : Prop :=
  Invariant State.reset ∧ ∀ nlimbs, Config.LegalLimbs nlimbs → Invariant (State.resetOf nlimbs)

/-- Every step, of whichever agent, keeps the invariant: registers stay `W`-bit integers (R21, R139), `BUSY` agrees with
the context (R30), the context agrees with `CMD` and the registers (R30, R64), only raised codes are recorded (R150), and
`EQ` and `LT` are never both 1 (R137). -/
def Obligations.EveryStepKeepsTheInvariant : Prop :=
  ∀ s t : State, Invariant s → step s = .next t → Invariant t

/-- R162: no step of the machine, from any state, is a fault or a refusal.  That a step given to an engine that is idle
or holds answers the same state is the model's choice (log entry 5). -/
def Obligations.EveryStepAnswersANextState : Prop :=
  ∀ s : State, ∃ t, step s = .next t

/-- R23: `EQ` and `LT` change only at the completion of a `CMP`, which sets them, and at reset; `PRIME` changes only in a
step of an `MRTEST` in flight, which it ends, and at reset. -/
def Obligations.FlagsAreWrittenOnlyByTheirCommand : Prop :=
  ∀ s t : State, step s = .next t →
    ((t.eq ≠ s.eq ∨ t.lt ≠ s.lt) →
      (∃ rest, s.agenda = .reset :: rest) ∨
      ∃ c ra rb, s.ctx = some c ∧ decode c.word = .command (.cmp ra rb) ∧
        t.eq = decide (c.va = c.vb) ∧ t.lt = decide (c.va < c.vb) ∧ t.ctx = none) ∧
    (t.prime ≠ s.prime →
      (∃ rest, s.agenda = .reset :: rest) ∨
      ∃ c ra imm, s.ctx = some c ∧ decode c.word = .command (.mrtest ra imm) ∧ t.ctx = none)

/-- R159, R64: once set, `HOSTERR` stays 1 in every step but a host write of 1 to bit 7 of `STATUS` and reset; it becomes
1 only in a host write to `CMD` or to a mapped operand limb while a command is in flight. -/
def Obligations.HosterrIsSticky : Prop :=
  ∀ s t : State, step s = .next t →
    (s.hosterr = true → t.hosterr = false →
      (∃ rest, s.agenda = .reset :: rest) ∨
      ∃ v rest, s.agenda = .host (.write 0x0008 4 v) :: rest ∧ v.getLsbD 7 = true) ∧
    (s.hosterr = false → t.hosterr = true → s.busy = true ∧
      ∃ off v rest, s.agenda = .host (.write off 4 v) :: rest ∧
        (off = 0x0010 ∨ ∃ i j, i < 8 ∧ j < s.nlimbs ∧ off = 0x1000 + 0x400 * i + 4 * j))

/-- R31, R64: no host transaction touches a command in flight: the context, `CMD`, `CODE`, every operand register, the
result flags and the entropy words are as before. -/
def Obligations.HostCannotDisturbACommandInFlight : Prop :=
  ∀ (s t : State) (tr : Transaction) (rest : List Event), s.busy = true → s.agenda = .host tr :: rest →
    step s = .next t →
    t.ctx = s.ctx ∧ t.busy = true ∧ t.cmd = s.cmd ∧ t.code = s.code ∧ t.x = s.x ∧ t.eq = s.eq ∧ t.lt = s.lt ∧
      t.prime = s.prime ∧ t.rnd = s.rnd ∧ t.agenda = rest

/-- R31: after issue a command's result depends only on the context and the entropy words: two states that agree on these
and on `CODE` have the same completion, code, context, remaining words, verdict or comparison, and value written. -/
def Obligations.ResultDependsOnTheLatchedValuesOnly : Prop :=
  ∀ (s s' : State) (i : Instr) (t t' : State), i.WellFormed → s.ctx = s'.ctx → s.rnd = s'.rnd → s.code = s'.code →
    s.code = 0#4 → exec i s = .next t → exec i s' = .next t' →
    t.code = t'.code ∧ t.ctx = t'.ctx ∧ t.rnd = t'.rnd ∧
      (t.code = 0#4 → t.ctx = none →
        match i with
        | .mrtest _ _ => t.prime = t'.prime
        | .cmp _ _ => t.eq = t'.eq ∧ t.lt = t'.lt
        | .modinv rd _ _ | .gcd rd _ _ | .modexp rd _ _ _ | .modmul rd _ _ _ | .modred rd _ _ =>
          t.readX rd = t'.readX rd)

/-- R32, R185, R188: a command in flight that draws no words completes at the engine's next step, which nothing can hold. -/
def Obligations.CompleteStepEndsTheCommand : Prop :=
  ∀ (s : State) (c : Ctx), Invariant s → s.ctx = some c → c.mr = none →
    (s.agenda = [] ∨ ∃ rest, s.agenda = .engine :: rest) →
    ∃ t, step s = .next t ∧ t.busy = false ∧ t.done = true ∧ t.ctx = none ∧ t.rnd = s.rnd

/-- R65, R185 (a): with no word on offer the engine holds for ever: however many steps it is given, nothing changes.  That
a step given to the holding engine leaves the state as it is is the model's choice (log entry 5). -/
def Obligations.NoWordHoldsForEver : Prop :=
  ∀ (s : State) (c : Ctx) (p : MrProgress) (k : Nat), Invariant s → s.ctx = some c → c.mr = some p →
    s.rnd.next = none → s.agenda = [] → Host.Core.run core k s = .next s

/-- R79: `WAIT` reads `STATUS` until `DONE` is 1; while it is 0 the engine takes a step before the next read, which is the
model's choice of when it does (log entry 9). -/
def Obligations.WaitReadsStatusUntilDone : Prop :=
  ∀ (s : State) (rest : List Event), s.agenda = .poll :: rest →
    (s.done = true → step s = .next { s with
      agenda := rest, answers := .okData s.statusWord :: s.answers, seen := s.statusWord }) ∧
    (s.done = false → step s = .next { s with
      agenda := .engine :: .poll :: rest, answers := .okData s.statusWord :: s.answers, seen := s.statusWord })

/-! ## The arithmetic -/

/-- R125: `modpow(b, e, m)` is `b^e mod m`, the empty product being 1, and lies in `[0, m)`. -/
def Obligations.ModpowIsThePowerModulo : Prop :=
  ∀ b e m : Nat, 1 ≤ m → modpow b e m = b ^ e % m ∧ modpow b 0 m = 1 % m ∧ modpow b e m < m

/-- R112: `egcd(b, m)` is the gcd and a Bézout coefficient of `b`; with the results of the rule's three traces. -/
def Obligations.EgcdGivesABezoutCoefficient : Prop :=
  (∀ b m : Nat, 1 ≤ m → (egcd b m).1 = Nat.gcd b m ∧
    ∃ y : Int, (b : Int) * (egcd b m).2 + (m : Int) * y = (Nat.gcd b m : Int)) ∧
  egcd 791 3120 = (1, 71) ∧ egcd 3 7 = (1, -2) ∧ egcd 0 5 = (5, 0)

/-- R92: `decomp(n)` is the one pair `(r, s)` with `n - 1 = 2^r * s`, `s` odd and `r >= 1`, for odd `n >= 3`; there are
at most `W` halvings; with the rule's examples. -/
def Obligations.DecompIsTheUniquePair : Prop :=
  (∀ n : Nat, 3 ≤ n → n % 2 = 1 →
    (n - 1 = 2 ^ (decomp n).1 * (decomp n).2 ∧ (decomp n).2 % 2 = 1 ∧ 1 ≤ (decomp n).1) ∧
    (∀ r s : Nat, n - 1 = 2 ^ r * s → s % 2 = 1 → decomp n = (r, s)) ∧
    (∀ nlimbs, n < 2 ^ Config.width nlimbs → (decomp n).1 ≤ Config.width nlimbs)) ∧
  decomp 5 = (2, 1) ∧ decomp 7 = (1, 3) ∧ decomp 9 = (3, 1) ∧ decomp 61 = (2, 15) ∧ decomp 221 = (2, 55) ∧
  decomp 561 = (4, 35) ∧ decomp 3233 = (5, 101)

/-- R93: for odd `n >= 5` representable in `W` bits, a candidate takes between 1 and `NLIMBS` words; an accepted candidate
gives a witness in `[2, n-2]`, and every such witness is given by some candidate. -/
def Obligations.WitnessesCoverTheirRange : Prop :=
  ∀ n nlimbs : Nat, 5 ≤ n → n % 2 = 1 → n < 2 ^ Config.width nlimbs →
    (1 ≤ candidateWords n ∧ candidateWords n ≤ nlimbs) ∧
    (∀ ws : List Word, ws.length = candidateWords n → accepted n ws = true →
      2 ≤ candidate n ws + 2 ∧ candidate n ws + 2 ≤ n - 2) ∧
    (∀ a, 2 ≤ a → a ≤ n - 2 →
      ∃ ws : List Word, ws.length = candidateWords n ∧ accepted n ws = true ∧ candidate n ws + 2 = a)

/-- R94: a round passes exactly when `a^s` is 1 or `n - 1` modulo `n`, or one of its first `r - 1` squarings is `n - 1`. -/
def Obligations.RoundPassesExactlyWhen : Prop :=
  ∀ n a : Nat, 5 ≤ n → n % 2 = 1 → 2 ≤ a → a ≤ n - 2 →
    (mrRound n a = true ↔
      a ^ (decomp n).2 % n = 1 ∨ ∃ j, j < (decomp n).1 ∧ a ^ (2 ^ j * (decomp n).2) % n = n - 1)

/-- R101: for a prime `n >= 5` every witness in `[2, n-2]` passes a round.  R101 marks the inference 'from general
knowledge, not in source'. -/
def Obligations.APrimePassesEveryRound : Prop :=
  ∀ n a : Nat, Nat.Prime n → 5 ≤ n → 2 ≤ a → a ≤ n - 2 → mrRound n a = true

/-- R97, R101: a verdict of 0 is always correct: whatever words are drawn, the step that completes an `MRTEST` of a prime
without error commits the verdict 1.  R101 marks the fact it rests on 'from general knowledge, not in source'. -/
def Obligations.APrimeIsNeverDeclaredComposite : Prop :=
  ∀ (s t : State) (c : Ctx) (ra imm : Nat), Invariant s → s.ctx = some c → decode c.word = .command (.mrtest ra imm) →
    Nat.Prime c.va → exec (.mrtest ra imm) s = .next t → t.busy = false → t.code = 0#4 → t.prime = true

/-- R95, R96: the engine's steps, one a word, carry out `MRTEST` as one function of `(n, rounds)` and the words to come:
where the first `m` words decide it, the steps commit that verdict after exactly the words it consumes; where no number of
words decides it, because they end or because every candidate is rejected, the command never completes (R185). -/
def Obligations.StepsCarryOutTheRoundsLoop : Prop :=
  ∀ (s : State) (c : Ctx) (ra imm : Nat), Invariant s → s.agenda = [] → s.ctx = some c →
    decode c.word = .command (.mrtest ra imm) → c.mr = some { i := 0, buf := [] } →
    (∀ m verdict k, mrtestVerdict c.va imm (s.rnd.upcoming m) = some (verdict, k) →
      Host.Core.run core k s =
        .next ({ s with prime := verdict, busy := false, done := true, ctx := none, rnd := s.rnd.after k } : State)) ∧
    ((∀ m, mrtestVerdict c.va imm (s.rnd.upcoming m) = none) →
      ∀ k, ∃ t : State, Host.Core.run core k s = .next t ∧ t.busy = true)

/-- R185, P-ENTROPY of R190: if the first `m` words to come hold at least `imm` accepted candidates, the `MRTEST` completes
within `m` engine steps. -/
def Obligations.EnoughEntropyCompletesTheTest : Prop :=
  ∀ (s : State) (c : Ctx) (ra imm m : Nat), Invariant s → s.agenda = [] → s.ctx = some c →
    decode c.word = .command (.mrtest ra imm) → c.mr = some { i := 0, buf := [] } →
    EntropyEnough c.va imm (s.rnd.upcoming m) →
    ∃ (k : Nat) (t : State), k ≤ m ∧ Host.Core.run core k s = .next t ∧ t.busy = false ∧ t.done = true

/-- R129: for a modulus that is a product of two distinct primes and a pair of exponents inverse modulo
`(p - 1) * (q - 1)`, transforming a block below the modulus and transforming the result gives the block back.  R129
marks it 'from general knowledge, not in source'. -/
def Obligations.TransformRoundTrip : Prop :=
  ∀ p q e d b : Nat, Nat.Prime p → Nat.Prime q → p ≠ q → e * d % ((p - 1) * (q - 1)) = 1 → b < p * q →
    modpow (modpow b e (p * q)) d (p * q) = b

/-! ## The entropy source and the host's reads -/

/-- R185 (b): where the source never ends and no candidate of its words is accepted, the engine draws for ever: after any
number of steps it has taken that many words, the command is in flight and no round has been counted. -/
def Obligations.RejectedCandidatesAreDrawnForEver : Prop :=
  ∀ (s : State) (c : Ctx), Invariant s → s.agenda = [] → s.ctx = some c → c.mr = some { i := 0, buf := [] } →
    (∀ m, (s.rnd.upcoming m).length = m ∧ acceptedCandidates c.va (s.rnd.upcoming m) = 0) →
    ∀ k, ∃ buf, Host.Core.run core k s =
      .next ({ s with ctx := some { c with mr := some { i := 0, buf := buf } }, rnd := s.rnd.after k } : State)

/-- R65, R79, R185: what the kinds of source offer.  A listed source offers exactly its words, in order, and then nothing
(`RND`); a repeating one offers its words again and again, a free one the free words in order, each after the words listed
before and without end.  The kinds are the model's choice (log entry 3). -/
def Obligations.SourcesOfferTheirWordsInOrder : Prop :=
  (∀ (ws : List Word) (m : Nat), (Source.exactly ws).upcoming m = ws.take m) ∧
  (∀ (ws us : List Word) (n : Nat), Source.upcoming (ws.length + n * us.length) { words := ws, more := .repeating us } =
    ws ++ (List.replicate n us).flatten) ∧
  (∀ (ws : List Word) (n m : Nat), Source.upcoming (ws.length + m) { words := ws, more := .free n } =
    ws ++ (List.range m).map (fun j => Config.freeWord (n + j)))

/-- R79, R62: the directive `RDX xi` gives the host the value of `x[i]`, busy or idle, one limb read a step, and changes
nothing of the block; the record of answers is the model's own field (log entry 8). -/
def Obligations.RdxReadsTheValue : Prop :=
  ∀ (s : State) (i : Nat) (rest : List Event), Invariant s → i < 8 → s.agenda = Script.rdx s.nlimbs i ++ rest →
    ∃ t : State, Host.Core.run core s.nlimbs s = .next t ∧ Script.rdxValue s.nlimbs t = s.readX i ∧
      t = { s with agenda := rest, answers := t.answers }
end

