-- ==== Sys2Proof/Laws/Arith.lean ====
section
/-! SUPPORT. What each arithmetic function of the machine computes, one lemma per function and loop. -/

namespace Sys2Proof.Machine

/-- The bit length bounds the value. -/
theorem lt_two_pow_bitlen (v : Nat) : v < 2 ^ bitlen v := by
  unfold bitlen
  split
  · subst_vars; decide
  · exact Nat.lt_log2_self

/-- A positive value reaches the bit below its bit length. -/
theorem two_pow_le_of_bitlen {v : Nat} (h : v ≠ 0) : 2 ^ (bitlen v - 1) ≤ v := by
  simp only [bitlen, h, if_false, Nat.add_sub_cancel]
  exact Nat.log2_self_le h

/-- The bit length is at most any width the value fits. -/
theorem bitlen_le_of_lt {v k : Nat} (h : v < 2 ^ k) : bitlen v ≤ k := by
  unfold bitlen
  split
  · exact Nat.zero_le _
  · rename_i h0
    exact (Nat.log2_lt h0).mpr h

/-- The remainder loop computes the gcd whenever its fuel is at least `y`. -/
theorem gcdLoop_eq_gcd : ∀ {fuel x y : Nat}, y ≤ fuel → gcdLoop fuel x y = Nat.gcd x y
  | 0, x, y, h => by simp [gcdLoop, Nat.le_zero.mp h]
  | fuel + 1, x, y, h => by
    unfold gcdLoop
    split
    · simp [*]
    · rename_i hy
      have hlt : x % y < y := Nat.mod_lt _ (Nat.pos_of_ne_zero hy)
      rw [gcdLoop_eq_gcd (by omega), Nat.gcd_comm x y, Nat.gcd_rec y x, Nat.gcd_comm]

/-- The extended loop keeps `r0 ≡ b * x0` and `r1 ≡ b * x1` modulo `m` and ends at the gcd. -/
theorem egcdLoop_spec {b m : Nat} : ∀ {fuel r0 r1 : Nat} {x0 x1 : Int}, r1 ≤ fuel →
    (m : Int) ∣ r0 - b * x0 → (m : Int) ∣ r1 - b * x1 →
    (egcdLoop fuel r0 r1 x0 x1).1 = Nat.gcd r0 r1 ∧
      (m : Int) ∣ (Nat.gcd r0 r1 : Int) - b * (egcdLoop fuel r0 r1 x0 x1).2
  | 0, r0, r1, x0, x1, h, h0, _ => by
    obtain rfl := Nat.le_zero.mp h
    simpa [egcdLoop] using h0
  | fuel + 1, r0, r1, x0, x1, h, h0, h1 => by
    unfold egcdLoop
    split
    · rename_i hz
      subst hz
      simpa using h0
    · rename_i hz
      have hmod : r0 - r0 / r1 * r1 = r0 % r1 := by
        have := Nat.div_add_mod r0 r1
        rw [Nat.mul_comm] at this
        omega
      have hlt : r0 % r1 < r1 := Nat.mod_lt _ (Nat.pos_of_ne_zero hz)
      have hg : Nat.gcd r0 r1 = Nat.gcd r1 (r0 % r1) := by
        rw [Nat.gcd_comm r0 r1, Nat.gcd_rec r1 r0, Nat.gcd_comm]
      have hcast : ((r0 % r1 : Nat) : Int) = r0 - ((r0 / r1 : Nat) : Int) * r1 := by
        have := Nat.div_add_mod r0 r1
        have h2 : ((r1 * (r0 / r1) + r0 % r1 : Nat) : Int) = r0 := by rw [this]
        push_cast at h2 ⊢
        linarith
      have h2 : (m : Int) ∣ ((r0 % r1 : Nat) : Int) - b * (x0 - ((r0 / r1 : Nat) : Int) * x1) := by
        have := dvd_sub h0 (h1.mul_left ((r0 / r1 : Nat) : Int))
        rw [hcast]
        refine this.trans (dvd_of_eq ?_)
        ring
      rw [hmod, hg]
      exact egcdLoop_spec (by omega) h1 h2

/-- Square-and-multiply over the low `k` bits of the exponent, from an accumulator already reduced. -/
theorem modpowLoop_eq {b e m : Nat} : ∀ (k acc : Nat), acc < m →
    modpowLoop b e m k acc = acc ^ 2 ^ k * b ^ (e % 2 ^ k) % m
  | 0, acc, h => by simp [modpowLoop, Nat.mod_one, Nat.mod_eq_of_lt h]
  | k + 1, acc, h => by
    have hm : 0 < m := by omega
    have key : e % 2 ^ (k + 1) = e % 2 ^ k + 2 ^ k * (e.testBit k).toNat := by
      rw [Nat.toNat_testBit]; exact Nat.mod_pow_succ
    have hsq : (acc ^ 2 ^ (k + 1)) = (acc * acc) ^ 2 ^ k := by rw [pow_succ', pow_mul, pow_two]
    unfold modpowLoop
    split
    · rename_i hb
      rw [modpowLoop_eq k _ (Nat.mod_lt _ hm), key, hb, hsq]
      refine (((((Nat.mod_modEq _ m).trans ((Nat.mod_modEq _ m).mul_right b)).pow _).mul_right _).trans ?_)
      rw [Bool.toNat_true, mul_one, mul_pow, pow_add]
      exact congrArg (· % m) (by ring)
    · rename_i hb
      rw [modpowLoop_eq k _ (Nat.mod_lt _ hm), key, Bool.not_eq_true _ |>.mp hb, hsq, Bool.toNat_false, mul_zero, add_zero]
      exact ((Nat.mod_modEq _ m).pow _).mul_right _

/-- The halving loop splits off every factor 2 when its fuel covers the bit length. -/
theorem decompLoop_spec : ∀ {fuel r s : Nat}, s ≠ 0 → s < 2 ^ fuel →
    2 ^ r * s = 2 ^ (decompLoop fuel r s).1 * (decompLoop fuel r s).2 ∧ (decompLoop fuel r s).2 % 2 = 1
  | 0, r, s, h0, h => by simp at h; omega
  | fuel + 1, r, s, h0, h => by
    unfold decompLoop
    split
    · rename_i he
      have hs : s = 2 * (s / 2) := by omega
      have h2 : 2 ^ r * s = 2 ^ (r + 1) * (s / 2) := by rw [pow_succ, mul_assoc, ← hs]
      rw [h2]
      rw [pow_succ] at h
      exact decompLoop_spec (by omega) (by omega)
    · exact ⟨rfl, by omega⟩

/-- The squaring loop passes exactly when one of the next `k` squares is `n - 1`. -/
theorem squaringLoop_iff {n : Nat} : ∀ {k x : Nat},
    squaringLoop n k x = true ↔ ∃ j, 1 ≤ j ∧ j ≤ k ∧ x ^ 2 ^ j % n = n - 1
  | 0, x => by simp only [squaringLoop, Bool.false_eq_true, false_iff]; rintro ⟨j, h1, h2, _⟩; omega
  | k + 1, x => by
    have hsq : ∀ j, (x * x % n) ^ 2 ^ j % n = x ^ 2 ^ (j + 1) % n := fun j => by
      rw [← Nat.pow_mod, pow_succ', pow_mul, pow_two]
    unfold squaringLoop
    split
    · rename_i h
      simp only [true_iff]
      exact ⟨1, le_refl _, by omega, by simpa [pow_two] using h⟩
    · rename_i h
      rw [squaringLoop_iff]
      constructor
      · rintro ⟨j, h1, h2, h3⟩
        exact ⟨j + 1, by omega, by omega, by rw [← hsq]; exact h3⟩
      · rintro ⟨j, h1, h2, h3⟩
        obtain ⟨i, rfl⟩ : ∃ i, j = i + 1 := ⟨j - 1, by omega⟩
        refine ⟨i, ?_, by omega, by rw [hsq]; exact h3⟩
        rcases Nat.eq_zero_or_pos i with rfl | hi
        · exact absurd (by simpa [pow_two] using h3) h
        · exact hi

/-- A word list's value fits its bits. -/
theorem wordsValue_lt : ∀ ws : List Word, wordsValue ws < 2 ^ (32 * ws.length)
  | [] => by simp [wordsValue]
  | w :: ws => by
    have h := wordsValue_lt ws
    have hw := w.isLt
    have : 2 ^ (32 * (ws.length + 1)) = 2 ^ 32 * 2 ^ (32 * ws.length) := by rw [← pow_add]; congr 1; omega
    simp only [wordsValue, List.length_cons, this]
    nlinarith

/-- Replacing a limb: that limb reads as the new word. -/
theorem limb_replaceLimb_self (a j : Nat) (v : Word) : limb (replaceLimb a j v) j = v.toNat := by
  have hv := v.isLt
  have hp : 0 < 2 ^ (32 * j) := by positivity
  have ha : a = 2 ^ (32 * j) * (a / 2 ^ (32 * j)) + a % 2 ^ (32 * j) := (Nat.div_add_mod _ _).symm
  have hle : a / 2 ^ (32 * j) % 2 ^ 32 ≤ a / 2 ^ (32 * j) := Nat.mod_le _ _
  have e : replaceLimb a j v =
      a % 2 ^ (32 * j) + 2 ^ (32 * j) * (a / 2 ^ (32 * j) - a / 2 ^ (32 * j) % 2 ^ 32 + v.toNat) := by
    unfold replaceLimb limb
    have h1 : a / 2 ^ (32 * j) % 2 ^ 32 * 2 ^ (32 * j) ≤ 2 ^ (32 * j) * (a / 2 ^ (32 * j)) := by
      rw [Nat.mul_comm]; exact Nat.mul_le_mul_left _ hle
    rw [Nat.mul_add, Nat.mul_sub, Nat.mul_comm (a / 2 ^ (32 * j) % 2 ^ 32), Nat.mul_comm v.toNat]
    rw [Nat.mul_comm] at h1
    omega
  unfold limb
  rw [e, Nat.add_mul_div_left _ _ hp, Nat.div_eq_of_lt (Nat.mod_lt _ hp)]
  omega

end Sys2Proof.Machine
end

