-- ==== Sys2Proof/Laws/Decode.lean ====
section
/-! SUPPORT. The fields of a command word as arithmetic on its value, and the fields of an encoded word. -/

namespace Sys2Proof

/-- A field is a slice of the word's value. -/
theorem field_eq (w : Word) (lo len : Nat) : field w lo len = w.toNat / 2 ^ lo % 2 ^ len := by
  simp [field, BitVec.extractLsb'_toNat, Nat.shiftRight_eq_div_pow]

/-- A bit of a word is a bit of its value. -/
theorem getLsbD_eq (w : Word) (k : Nat) : w.getLsbD k = decide (w.toNat / 2 ^ k % 2 = 1) := by
  rw [BitVec.getLsbD, Nat.testBit_eq_decide_div_mod_eq]

/-- The value of a word put together from fields that fit. -/
theorem encodeFields_toNat {op rd ra rb rm imm : Nat} (hop : op < 16) (hrd : rd < 8) (hra : ra < 8) (hrb : rb < 8)
    (hrm : rm < 8) (himm : imm < 4096) : (encodeFields op rd ra rb rm imm).toNat =
      op + 16 * rd + 256 * ra + 4096 * rb + 65536 * rm + 1048576 * imm := by
  simp only [encodeFields, BitVec.toNat_ofNat]
  omega

/-- Every field of a word put together from fields that fit reads back, and no reserved bit is set. -/
theorem fields_encodeFields {op rd ra rb rm imm : Nat} (hop : op < 16) (hrd : rd < 8) (hra : ra < 8) (hrb : rb < 8)
    (hrm : rm < 8) (himm : imm < 4096) :
    opField (encodeFields op rd ra rb rm imm) = op ∧ rdField (encodeFields op rd ra rb rm imm) = rd ∧
    raField (encodeFields op rd ra rb rm imm) = ra ∧ rbField (encodeFields op rd ra rb rm imm) = rb ∧
    rmField (encodeFields op rd ra rb rm imm) = rm ∧ immField (encodeFields op rd ra rb rm imm) = imm ∧
    reservedSet (encodeFields op rd ra rb rm imm) = false := by
  simp only [opField, rdField, raField, rbField, rmField, immField, reservedSet, field_eq, getLsbD_eq,
    encodeFields_toNat hop hrd hra hrb hrm himm, Bool.or_eq_false_iff, decide_eq_false_iff_not]
  omega

/-- Register fields are below 8. -/
theorem reg_fields_lt (w : Word) : rdField w < 8 ∧ raField w < 8 ∧ rbField w < 8 ∧ rmField w < 8 ∧ immField w < 4096 := by
  simp only [rdField, raField, rbField, rmField, immField, field_eq]
  omega

/-- A guarded command decodes exactly when its unused fields are 0. -/
theorem whenUnusedZero_eq_command {b : Bool} {i j : Instr} : whenUnusedZero b i = .command j ↔ b = true ∧ j = i := by
  cases b <;> simp [whenUnusedZero, eq_comm]

/-- What it takes for a word to decode to a command: one of R74's seven rows. -/
theorem decode_command {w : Word} {i : Instr} : decode w = .command i ↔ reservedSet w = false ∧
    ((opField w = 1 ∧ (rdField w = 0 ∧ rbField w = 0 ∧ rmField w = 0) ∧ i = .mrtest (raField w) (immField w)) ∨
     (opField w = 2 ∧ (rbField w = 0 ∧ immField w = 0) ∧ i = .modinv (rdField w) (raField w) (rmField w)) ∨
     (opField w = 3 ∧ (rmField w = 0 ∧ immField w = 0) ∧ i = .gcd (rdField w) (raField w) (rbField w)) ∨
     (opField w = 4 ∧ immField w = 0 ∧ i = .modexp (rdField w) (raField w) (rbField w) (rmField w)) ∨
     (opField w = 5 ∧ immField w = 0 ∧ i = .modmul (rdField w) (raField w) (rbField w) (rmField w)) ∨
     (opField w = 6 ∧ (rbField w = 0 ∧ immField w = 0) ∧ i = .modred (rdField w) (raField w) (rmField w)) ∨
     (opField w = 7 ∧ (rdField w = 0 ∧ rmField w = 0 ∧ immField w = 0) ∧ i = .cmp (raField w) (rbField w))) := by
  unfold decode
  by_cases hr : reservedSet w = true
  · simp [hr]
  · simp only [hr, Bool.false_eq_true, if_false]
    split <;> simp_all [whenUnusedZero_eq_command, and_assoc]

end Sys2Proof
end

