-- ==== Sys2Proof/Laws/Source.lean ====
section
/-! SUPPORT. What the entropy source offers, one lemma per kind of source, and how the words to come unfold. -/

namespace Sys2Proof.Machine

@[simp] theorem next_listed (w : Word) (ws : List Word) (more : Supply) :
    Source.next { words := w :: ws, more := more } = some (w, { words := ws, more := more }) := rfl
@[simp] theorem next_silent : Source.next { words := [], more := .silent } = none := rfl
@[simp] theorem next_repeating_nil : Source.next { words := [], more := .repeating [] } = none := rfl
@[simp] theorem next_repeating_cons (w : Word) (ws : List Word) :
    Source.next { words := [], more := .repeating (w :: ws) } =
      some (w, { words := ws, more := .repeating (w :: ws) }) := rfl
@[simp] theorem next_free (k : Nat) : Source.next { words := [], more := .free k } =
    some (Config.freeWord k, { words := [], more := .free (k + 1) }) := rfl

@[simp] theorem upcoming_zero (src : Source) : src.upcoming 0 = [] := rfl
@[simp] theorem after_zero (src : Source) : src.after 0 = src := rfl

/-- With a word on offer, the words to come begin with it. -/
theorem upcoming_succ {src rest : Source} {w : Word} (h : src.next = some (w, rest)) (m : Nat) :
    src.upcoming (m + 1) = w :: rest.upcoming m := by simp [Source.upcoming, h]

/-- With a word on offer, taking `m + 1` words takes it and then `m` more. -/
theorem after_succ {src rest : Source} {w : Word} (h : src.next = some (w, rest)) (m : Nat) :
    src.after (m + 1) = rest.after m := by simp [Source.after, h]

/-- With no word on offer, no word is to come and none is taken. -/
theorem upcoming_none {src : Source} (h : src.next = none) : ∀ m, src.upcoming m = []
  | 0 => rfl
  | m + 1 => by simp [Source.upcoming, h]

/-- A source never offers more than asked for. -/
theorem upcoming_length_le : ∀ (m : Nat) (src : Source), (src.upcoming m).length ≤ m
  | 0, _ => Nat.le_refl _
  | m + 1, src => by
    unfold Source.upcoming
    split
    · exact Nat.succ_le_succ (upcoming_length_le m _)
    · exact Nat.zero_le _

end Sys2Proof.Machine
end

