-- ==== Sys2Proof/Laws/State.lean ====
section
/-! SUPPORT. What each named update of a state leaves in each field, so that no proof unfolds a record update. -/

namespace Sys2Proof.Machine

@[simp] theorem setX_nlimbs (i v : Nat) (s : State) : (State.setX i v s).nlimbs = s.nlimbs := rfl
@[simp] theorem setX_x (i v : Nat) (s : State) : (State.setX i v s).x = s.x.setIfInBounds i v := rfl
@[simp] theorem setX_ie (i v : Nat) (s : State) : (State.setX i v s).ie = s.ie := rfl
@[simp] theorem setX_busy (i v : Nat) (s : State) : (State.setX i v s).busy = s.busy := rfl
@[simp] theorem setX_done (i v : Nat) (s : State) : (State.setX i v s).done = s.done := rfl
@[simp] theorem setX_eq (i v : Nat) (s : State) : (State.setX i v s).eq = s.eq := rfl
@[simp] theorem setX_lt (i v : Nat) (s : State) : (State.setX i v s).lt = s.lt := rfl
@[simp] theorem setX_prime (i v : Nat) (s : State) : (State.setX i v s).prime = s.prime := rfl
@[simp] theorem setX_hosterr (i v : Nat) (s : State) : (State.setX i v s).hosterr = s.hosterr := rfl
@[simp] theorem setX_code (i v : Nat) (s : State) : (State.setX i v s).code = s.code := rfl
@[simp] theorem setX_cmd (i v : Nat) (s : State) : (State.setX i v s).cmd = s.cmd := rfl
@[simp] theorem setX_ctx (i v : Nat) (s : State) : (State.setX i v s).ctx = s.ctx := rfl
@[simp] theorem setX_rnd (i v : Nat) (s : State) : (State.setX i v s).rnd = s.rnd := rfl
@[simp] theorem setX_agenda (i v : Nat) (s : State) : (State.setX i v s).agenda = s.agenda := rfl
@[simp] theorem setX_answers (i v : Nat) (s : State) : (State.setX i v s).answers = s.answers := rfl
@[simp] theorem setX_seen (i v : Nat) (s : State) : (State.setX i v s).seen = s.seen := rfl

@[simp] theorem setCompare_nlimbs (a b : Nat) (s : State) : (State.setCompare a b s).nlimbs = s.nlimbs := rfl
@[simp] theorem setCompare_x (a b : Nat) (s : State) : (State.setCompare a b s).x = s.x := rfl
@[simp] theorem setCompare_ie (a b : Nat) (s : State) : (State.setCompare a b s).ie = s.ie := rfl
@[simp] theorem setCompare_busy (a b : Nat) (s : State) : (State.setCompare a b s).busy = s.busy := rfl
@[simp] theorem setCompare_done (a b : Nat) (s : State) : (State.setCompare a b s).done = s.done := rfl
@[simp] theorem setCompare_eq (a b : Nat) (s : State) : (State.setCompare a b s).eq = decide (a = b) := rfl
@[simp] theorem setCompare_lt (a b : Nat) (s : State) : (State.setCompare a b s).lt = decide (a < b) := rfl
@[simp] theorem setCompare_prime (a b : Nat) (s : State) : (State.setCompare a b s).prime = s.prime := rfl
@[simp] theorem setCompare_hosterr (a b : Nat) (s : State) : (State.setCompare a b s).hosterr = s.hosterr := rfl
@[simp] theorem setCompare_code (a b : Nat) (s : State) : (State.setCompare a b s).code = s.code := rfl
@[simp] theorem setCompare_cmd (a b : Nat) (s : State) : (State.setCompare a b s).cmd = s.cmd := rfl
@[simp] theorem setCompare_ctx (a b : Nat) (s : State) : (State.setCompare a b s).ctx = s.ctx := rfl
@[simp] theorem setCompare_rnd (a b : Nat) (s : State) : (State.setCompare a b s).rnd = s.rnd := rfl
@[simp] theorem setCompare_agenda (a b : Nat) (s : State) : (State.setCompare a b s).agenda = s.agenda := rfl
@[simp] theorem setCompare_answers (a b : Nat) (s : State) : (State.setCompare a b s).answers = s.answers := rfl
@[simp] theorem setCompare_seen (a b : Nat) (s : State) : (State.setCompare a b s).seen = s.seen := rfl

@[simp] theorem setPrime_nlimbs (p : Bool) (s : State) : (State.setPrime p s).nlimbs = s.nlimbs := rfl
@[simp] theorem setPrime_x (p : Bool) (s : State) : (State.setPrime p s).x = s.x := rfl
@[simp] theorem setPrime_ie (p : Bool) (s : State) : (State.setPrime p s).ie = s.ie := rfl
@[simp] theorem setPrime_busy (p : Bool) (s : State) : (State.setPrime p s).busy = s.busy := rfl
@[simp] theorem setPrime_done (p : Bool) (s : State) : (State.setPrime p s).done = s.done := rfl
@[simp] theorem setPrime_eq (p : Bool) (s : State) : (State.setPrime p s).eq = s.eq := rfl
@[simp] theorem setPrime_lt (p : Bool) (s : State) : (State.setPrime p s).lt = s.lt := rfl
@[simp] theorem setPrime_prime (p : Bool) (s : State) : (State.setPrime p s).prime = p := rfl
@[simp] theorem setPrime_hosterr (p : Bool) (s : State) : (State.setPrime p s).hosterr = s.hosterr := rfl
@[simp] theorem setPrime_code (p : Bool) (s : State) : (State.setPrime p s).code = s.code := rfl
@[simp] theorem setPrime_cmd (p : Bool) (s : State) : (State.setPrime p s).cmd = s.cmd := rfl
@[simp] theorem setPrime_ctx (p : Bool) (s : State) : (State.setPrime p s).ctx = s.ctx := rfl
@[simp] theorem setPrime_rnd (p : Bool) (s : State) : (State.setPrime p s).rnd = s.rnd := rfl
@[simp] theorem setPrime_agenda (p : Bool) (s : State) : (State.setPrime p s).agenda = s.agenda := rfl
@[simp] theorem setPrime_answers (p : Bool) (s : State) : (State.setPrime p s).answers = s.answers := rfl
@[simp] theorem setPrime_seen (p : Bool) (s : State) : (State.setPrime p s).seen = s.seen := rfl

@[simp] theorem finish_nlimbs (s : State) : (State.finish s).nlimbs = s.nlimbs := rfl
@[simp] theorem finish_x (s : State) : (State.finish s).x = s.x := rfl
@[simp] theorem finish_ie (s : State) : (State.finish s).ie = s.ie := rfl
@[simp] theorem finish_busy (s : State) : (State.finish s).busy = false := rfl
@[simp] theorem finish_done (s : State) : (State.finish s).done = true := rfl
@[simp] theorem finish_eq (s : State) : (State.finish s).eq = s.eq := rfl
@[simp] theorem finish_lt (s : State) : (State.finish s).lt = s.lt := rfl
@[simp] theorem finish_prime (s : State) : (State.finish s).prime = s.prime := rfl
@[simp] theorem finish_hosterr (s : State) : (State.finish s).hosterr = s.hosterr := rfl
@[simp] theorem finish_code (s : State) : (State.finish s).code = s.code := rfl
@[simp] theorem finish_cmd (s : State) : (State.finish s).cmd = s.cmd := rfl
@[simp] theorem finish_ctx (s : State) : (State.finish s).ctx = none := rfl
@[simp] theorem finish_rnd (s : State) : (State.finish s).rnd = s.rnd := rfl
@[simp] theorem finish_agenda (s : State) : (State.finish s).agenda = s.agenda := rfl
@[simp] theorem finish_answers (s : State) : (State.finish s).answers = s.answers := rfl
@[simp] theorem finish_seen (s : State) : (State.finish s).seen = s.seen := rfl

@[simp] theorem raise_nlimbs (k : ErrKind) (s : State) : (raise k s).nlimbs = s.nlimbs := rfl
@[simp] theorem raise_x (k : ErrKind) (s : State) : (raise k s).x = s.x := rfl
@[simp] theorem raise_ie (k : ErrKind) (s : State) : (raise k s).ie = s.ie := rfl
@[simp] theorem raise_busy (k : ErrKind) (s : State) : (raise k s).busy = false := rfl
@[simp] theorem raise_done (k : ErrKind) (s : State) : (raise k s).done = true := rfl
@[simp] theorem raise_eq (k : ErrKind) (s : State) : (raise k s).eq = s.eq := rfl
@[simp] theorem raise_lt (k : ErrKind) (s : State) : (raise k s).lt = s.lt := rfl
@[simp] theorem raise_prime (k : ErrKind) (s : State) : (raise k s).prime = s.prime := rfl
@[simp] theorem raise_hosterr (k : ErrKind) (s : State) : (raise k s).hosterr = s.hosterr := rfl
@[simp] theorem raise_code (k : ErrKind) (s : State) : (raise k s).code = k.code := rfl
@[simp] theorem raise_cmd (k : ErrKind) (s : State) : (raise k s).cmd = s.cmd := rfl
@[simp] theorem raise_ctx (k : ErrKind) (s : State) : (raise k s).ctx = none := rfl
@[simp] theorem raise_rnd (k : ErrKind) (s : State) : (raise k s).rnd = s.rnd := rfl
@[simp] theorem raise_agenda (k : ErrKind) (s : State) : (raise k s).agenda = s.agenda := rfl
@[simp] theorem raise_answers (k : ErrKind) (s : State) : (raise k s).answers = s.answers := rfl
@[simp] theorem raise_seen (k : ErrKind) (s : State) : (raise k s).seen = s.seen := rfl

@[simp] theorem issue_nlimbs (w : Word) (s : State) : (State.issue w s).nlimbs = s.nlimbs := rfl
@[simp] theorem issue_x (w : Word) (s : State) : (State.issue w s).x = s.x := rfl
@[simp] theorem issue_ie (w : Word) (s : State) : (State.issue w s).ie = s.ie := rfl
@[simp] theorem issue_busy (w : Word) (s : State) : (State.issue w s).busy = true := rfl
@[simp] theorem issue_done (w : Word) (s : State) : (State.issue w s).done = false := rfl
@[simp] theorem issue_eq (w : Word) (s : State) : (State.issue w s).eq = s.eq := rfl
@[simp] theorem issue_lt (w : Word) (s : State) : (State.issue w s).lt = s.lt := rfl
@[simp] theorem issue_prime (w : Word) (s : State) : (State.issue w s).prime = s.prime := rfl
@[simp] theorem issue_hosterr (w : Word) (s : State) : (State.issue w s).hosterr = s.hosterr := rfl
@[simp] theorem issue_code (w : Word) (s : State) : (State.issue w s).code = 0#4 := rfl
@[simp] theorem issue_cmd (w : Word) (s : State) : (State.issue w s).cmd = w := rfl
@[simp] theorem issue_ctx (w : Word) (s : State) : (State.issue w s).ctx = some (s.latch w) := rfl
@[simp] theorem issue_rnd (w : Word) (s : State) : (State.issue w s).rnd = s.rnd := rfl
@[simp] theorem issue_agenda (w : Word) (s : State) : (State.issue w s).agenda = s.agenda := rfl
@[simp] theorem issue_answers (w : Word) (s : State) : (State.issue w s).answers = s.answers := rfl
@[simp] theorem issue_seen (w : Word) (s : State) : (State.issue w s).seen = s.seen := rfl

@[simp] theorem dropWrite_nlimbs (s : State) : (State.dropWrite s).nlimbs = s.nlimbs := rfl
@[simp] theorem dropWrite_x (s : State) : (State.dropWrite s).x = s.x := rfl
@[simp] theorem dropWrite_ie (s : State) : (State.dropWrite s).ie = s.ie := rfl
@[simp] theorem dropWrite_busy (s : State) : (State.dropWrite s).busy = s.busy := rfl
@[simp] theorem dropWrite_done (s : State) : (State.dropWrite s).done = s.done := rfl
@[simp] theorem dropWrite_eq (s : State) : (State.dropWrite s).eq = s.eq := rfl
@[simp] theorem dropWrite_lt (s : State) : (State.dropWrite s).lt = s.lt := rfl
@[simp] theorem dropWrite_prime (s : State) : (State.dropWrite s).prime = s.prime := rfl
@[simp] theorem dropWrite_hosterr (s : State) : (State.dropWrite s).hosterr = true := rfl
@[simp] theorem dropWrite_code (s : State) : (State.dropWrite s).code = s.code := rfl
@[simp] theorem dropWrite_cmd (s : State) : (State.dropWrite s).cmd = s.cmd := rfl
@[simp] theorem dropWrite_ctx (s : State) : (State.dropWrite s).ctx = s.ctx := rfl
@[simp] theorem dropWrite_rnd (s : State) : (State.dropWrite s).rnd = s.rnd := rfl
@[simp] theorem dropWrite_agenda (s : State) : (State.dropWrite s).agenda = s.agenda := rfl
@[simp] theorem dropWrite_answers (s : State) : (State.dropWrite s).answers = s.answers := rfl
@[simp] theorem dropWrite_seen (s : State) : (State.dropWrite s).seen = s.seen := rfl

@[simp] theorem clearStatus_nlimbs (v : Word) (s : State) : (State.clearStatus v s).nlimbs = s.nlimbs := rfl
@[simp] theorem clearStatus_x (v : Word) (s : State) : (State.clearStatus v s).x = s.x := rfl
@[simp] theorem clearStatus_ie (v : Word) (s : State) : (State.clearStatus v s).ie = s.ie := rfl
@[simp] theorem clearStatus_busy (v : Word) (s : State) : (State.clearStatus v s).busy = s.busy := rfl
@[simp] theorem clearStatus_done (v : Word) (s : State) : (State.clearStatus v s).done = (s.done && !v.getLsbD 1) := rfl
@[simp] theorem clearStatus_eq (v : Word) (s : State) : (State.clearStatus v s).eq = s.eq := rfl
@[simp] theorem clearStatus_lt (v : Word) (s : State) : (State.clearStatus v s).lt = s.lt := rfl
@[simp] theorem clearStatus_prime (v : Word) (s : State) : (State.clearStatus v s).prime = s.prime := rfl
@[simp] theorem clearStatus_hosterr (v : Word) (s : State) : (State.clearStatus v s).hosterr = (s.hosterr && !v.getLsbD 7) := rfl
@[simp] theorem clearStatus_code (v : Word) (s : State) : (State.clearStatus v s).code = s.code := rfl
@[simp] theorem clearStatus_cmd (v : Word) (s : State) : (State.clearStatus v s).cmd = s.cmd := rfl
@[simp] theorem clearStatus_ctx (v : Word) (s : State) : (State.clearStatus v s).ctx = s.ctx := rfl
@[simp] theorem clearStatus_rnd (v : Word) (s : State) : (State.clearStatus v s).rnd = s.rnd := rfl
@[simp] theorem clearStatus_agenda (v : Word) (s : State) : (State.clearStatus v s).agenda = s.agenda := rfl
@[simp] theorem clearStatus_answers (v : Word) (s : State) : (State.clearStatus v s).answers = s.answers := rfl
@[simp] theorem clearStatus_seen (v : Word) (s : State) : (State.clearStatus v s).seen = s.seen := rfl

@[simp] theorem writeLimb_nlimbs (i j : Nat) (v : Word) (s : State) : (State.writeLimb i j v s).nlimbs = s.nlimbs := rfl
@[simp] theorem writeLimb_x (i j : Nat) (v : Word) (s : State) : (State.writeLimb i j v s).x = s.x.setIfInBounds i (replaceLimb (s.readX i) j v) := rfl
@[simp] theorem writeLimb_ie (i j : Nat) (v : Word) (s : State) : (State.writeLimb i j v s).ie = s.ie := rfl
@[simp] theorem writeLimb_busy (i j : Nat) (v : Word) (s : State) : (State.writeLimb i j v s).busy = s.busy := rfl
@[simp] theorem writeLimb_done (i j : Nat) (v : Word) (s : State) : (State.writeLimb i j v s).done = s.done := rfl
@[simp] theorem writeLimb_eq (i j : Nat) (v : Word) (s : State) : (State.writeLimb i j v s).eq = s.eq := rfl
@[simp] theorem writeLimb_lt (i j : Nat) (v : Word) (s : State) : (State.writeLimb i j v s).lt = s.lt := rfl
@[simp] theorem writeLimb_prime (i j : Nat) (v : Word) (s : State) : (State.writeLimb i j v s).prime = s.prime := rfl
@[simp] theorem writeLimb_hosterr (i j : Nat) (v : Word) (s : State) : (State.writeLimb i j v s).hosterr = s.hosterr := rfl
@[simp] theorem writeLimb_code (i j : Nat) (v : Word) (s : State) : (State.writeLimb i j v s).code = s.code := rfl
@[simp] theorem writeLimb_cmd (i j : Nat) (v : Word) (s : State) : (State.writeLimb i j v s).cmd = s.cmd := rfl
@[simp] theorem writeLimb_ctx (i j : Nat) (v : Word) (s : State) : (State.writeLimb i j v s).ctx = s.ctx := rfl
@[simp] theorem writeLimb_rnd (i j : Nat) (v : Word) (s : State) : (State.writeLimb i j v s).rnd = s.rnd := rfl
@[simp] theorem writeLimb_agenda (i j : Nat) (v : Word) (s : State) : (State.writeLimb i j v s).agenda = s.agenda := rfl
@[simp] theorem writeLimb_answers (i j : Nat) (v : Word) (s : State) : (State.writeLimb i j v s).answers = s.answers := rfl
@[simp] theorem writeLimb_seen (i j : Nat) (v : Word) (s : State) : (State.writeLimb i j v s).seen = s.seen := rfl

@[simp] theorem resetBlock_nlimbs (s : State) : (State.resetBlock s).nlimbs = s.nlimbs := rfl
@[simp] theorem resetBlock_x (s : State) : (State.resetBlock s).x = #v[0, 0, 0, 0, 0, 0, 0, 0] := rfl
@[simp] theorem resetBlock_ie (s : State) : (State.resetBlock s).ie = false := rfl
@[simp] theorem resetBlock_busy (s : State) : (State.resetBlock s).busy = false := rfl
@[simp] theorem resetBlock_done (s : State) : (State.resetBlock s).done = false := rfl
@[simp] theorem resetBlock_eq (s : State) : (State.resetBlock s).eq = false := rfl
@[simp] theorem resetBlock_lt (s : State) : (State.resetBlock s).lt = false := rfl
@[simp] theorem resetBlock_prime (s : State) : (State.resetBlock s).prime = false := rfl
@[simp] theorem resetBlock_hosterr (s : State) : (State.resetBlock s).hosterr = false := rfl
@[simp] theorem resetBlock_code (s : State) : (State.resetBlock s).code = 0#4 := rfl
@[simp] theorem resetBlock_cmd (s : State) : (State.resetBlock s).cmd = 0#32 := rfl
@[simp] theorem resetBlock_ctx (s : State) : (State.resetBlock s).ctx = none := rfl
@[simp] theorem resetBlock_rnd (s : State) : (State.resetBlock s).rnd = s.rnd := rfl
@[simp] theorem resetBlock_agenda (s : State) : (State.resetBlock s).agenda = s.agenda := rfl
@[simp] theorem resetBlock_answers (s : State) : (State.resetBlock s).answers = s.answers := rfl
@[simp] theorem resetBlock_seen (s : State) : (State.resetBlock s).seen = s.seen := rfl

/-- Writing one of the eight registers. -/
theorem setX_eq_set {i : Nat} (h : i < 8) (v : Nat) (s : State) : s.setX i v = { s with x := s.x.set i v h } := by
  have : s.x.setIfInBounds i v = s.x.set i v h := by
    ext j hj
    simp [Vector.getElem_setIfInBounds, Vector.getElem_set]
  simp [State.setX, this]

/-- A register whose number is another reads as before a register write. -/
theorem readX_setX_ne {i j : Nat} (h : j ≠ i) (v : Nat) (s : State) : (s.setX i v).readX j = s.readX j := by
  simp [State.readX, Ne.symm h]

/-- The register written reads as the value written. -/
theorem readX_setX_self {i : Nat} (h : i < 8) (v : Nat) (s : State) : (s.setX i v).readX i = v := by
  simp [State.readX, h]

end Sys2Proof.Machine
end

