-- ==== Sys2Proof/Laws/Ops.lean ====
section
/-! SUPPORT. What each shared operation can do, said once: later proofs cite these instead of unfolding. -/

namespace Sys2Proof.Machine

/-- A meaning answers a next state exactly when a command is in flight. -/
theorem onCommand_next {s t : State} {f : Ctx → State} :
    onCommand s f = .next t ↔ ∃ c, s.ctx = some c ∧ t = f c := by
  unfold onCommand
  cases s.ctx <;> simp [eq_comm]

/-- With the command in flight named, a meaning is its function on it. -/
theorem onCommand_some {s : State} {c : Ctx} (h : s.ctx = some c) (f : Ctx → State) : onCommand s f = .next (f c) := by
  simp [onCommand, h]

/-- A draw either holds, no word being on offer, or hands the word over and leaves the source without it. -/
theorem drawWord_cases (s : State) (f : Word → State → State) :
    (s.rnd.next = none ∧ drawWord s f = s) ∨
      ∃ w rest, s.rnd.next = some (w, rest) ∧ drawWord s f = f w { s with rnd := rest } := by
  unfold drawWord
  cases h : s.rnd.next with
  | none => exact .inl ⟨rfl, rfl⟩
  | some p => exact .inr ⟨p.1, p.2, rfl, rfl⟩

/-- What a division-unit command does: raise, or write one value below the modulus. -/
theorem commitReduced_next {s t : State} {rd : Nat} {v : Ctx → Nat} (h : commitReduced rd v s = .next t) :
    ∃ c, s.ctx = some c ∧ ((c.vm = 0 ∧ t = raise .invalidArgument s) ∨
      (c.vm ≠ 0 ∧ t = commitOk (·.setX rd (v c % c.vm)) s)) := by
  obtain ⟨c, hc, rfl⟩ := onCommand_next.mp h
  refine ⟨c, hc, ?_⟩
  by_cases hm : c.vm = 0 <;> simp [hm]

/-- A witness is needed exactly by an `MRTEST` with rounds to run on an odd `n >= 5`. -/
theorem needsWitness_iff (w : Word) (va : Nat) :
    needsWitness w va = true ↔ ∃ ra imm, decode w = .command (.mrtest ra imm) ∧ imm ≠ 0 ∧ va % 2 = 1 ∧ 5 ≤ va := by
  unfold needsWitness
  split
  · rename_i ra imm h
    constructor
    · intro hb
      simp only [Bool.and_eq_true, bne_iff_ne, beq_iff_eq, decide_eq_true_eq] at hb
      exact ⟨ra, imm, h, hb.1.1, hb.1.2, hb.2⟩
    · rintro ⟨ra', imm', h', h0, h1, h2⟩
      rw [h] at h'
      cases h'
      simp [h0, h1, h2]
  · rename_i hne
    constructor
    · intro hb; cases hb
    · rintro ⟨ra', imm', h', _⟩
      exact absurd h' (hne ra' imm')

/-- What the engine's step can be: idle, an illegal word's completion, or the step of the command in flight. -/
theorem engineStep_cases (s : State) :
    (s.ctx = none ∧ engineStep s = .next s) ∨
    (∃ c why, s.ctx = some c ∧ decode c.word = .illegal why ∧ engineStep s = .next (raise .illegalCommand s)) ∨
    (∃ c i, s.ctx = some c ∧ decode c.word = .command i ∧ engineStep s = exec i s) := by
  unfold engineStep
  cases hc : s.ctx with
  | none => exact .inl ⟨rfl, rfl⟩
  | some c =>
    cases hd : decode c.word with
    | command i => exact .inr (.inr ⟨c, i, rfl, hd, by simp [hd]⟩)
    | illegal why => exact .inr (.inl ⟨c, why, rfl, hd, by simp [hd]⟩)

end Sys2Proof.Machine
end

