-- ==== Sys2Proof/Laws/Exec.lean ====
section
/-! SUPPORT. Everything a command's step can do, said once: an invariant of the machine follows from these cases without
unfolding the meanings. -/

namespace Sys2Proof.Machine

/-- The reference computation of `GCD` is the greatest common divisor. -/
theorem gcdRef_eq_gcd (x y : Nat) : gcdRef x y = Nat.gcd x y := by
  unfold gcdRef
  split
  · rw [gcdLoop_eq_gcd (le_refl _), Nat.gcd_comm]
  · rw [gcdLoop_eq_gcd (le_refl _)]

/-- The normalised remainder is below the modulus. -/
theorem intMod_lt (x : Int) {m : Nat} (h : m ≠ 0) : intMod x m < m := by
  have h1 := Int.emod_lt_of_pos x (show (0 : Int) < m by omega)
  have h2 := Int.emod_nonneg x (show (m : Int) ≠ 0 by omega)
  unfold intMod
  omega

/-- A power is below the modulus. -/
theorem modpow_lt (b e : Nat) {m : Nat} (h : 0 < m) : modpow b e m < m := by
  unfold modpow
  rw [modpowLoop_eq _ _ (Nat.mod_lt _ h)]
  exact Nat.mod_lt _ h

/-- What one step of a command in flight can do: raise an error, write one register with a value bounded by an operand,
write the comparison flags, commit a verdict, start the rounds, hold, or take an entropy word. -/
theorem exec_cases {s t : State} {i : Instr} (h : exec i s = .next t) : ∃ c, s.ctx = some c ∧
    ((∃ k, t = raise k s ∧ (k = .invalidArgument ∨ k = .notInvertible ∨ k = .invalidBlock)) ∨
     (∃ rd v, (∀ ra imm, i ≠ .mrtest ra imm) ∧ (∀ ra rb, i ≠ .cmp ra rb) ∧ t = commitOk (·.setX rd v) s ∧
       (v ≤ c.va ∨ v < c.vm)) ∨
     (∃ ra rb, i = .cmp ra rb ∧ t = commitOk (·.setCompare c.va c.vb) s) ∨
     (∃ ra imm b, i = .mrtest ra imm ∧ c.mr = none ∧ t = commitOk (·.setPrime b) s) ∨
     (∃ ra imm, i = .mrtest ra imm ∧ c.mr = none ∧ imm ≠ 0 ∧ c.va % 2 = 1 ∧ 5 ≤ c.va ∧
       t = { s with ctx := some { c with mr := some { i := 0, buf := [] } } }) ∨
     (∃ ra imm p, i = .mrtest ra imm ∧ c.mr = some p ∧ s.rnd.next = none ∧ t = s) ∨
     (∃ ra imm p w rest, i = .mrtest ra imm ∧ c.mr = some p ∧ s.rnd.next = some (w, rest) ∧
       t = mrWord imm c p w { s with rnd := rest })) := by
  cases i with
  | mrtest ra imm =>
    obtain ⟨c, hc, rfl⟩ := onCommand_next.mp (show execMrtest imm s = _ from h)
    refine ⟨c, hc, ?_⟩
    cases hm : c.mr with
    | none =>
      dsimp only
      unfold mrtestComplete
      split_ifs
      · exact .inl ⟨_, rfl, .inl rfl⟩
      · exact .inr <| .inr <| .inr <| .inl ⟨ra, imm, _, rfl, rfl, rfl⟩
      · exact .inr <| .inr <| .inr <| .inl ⟨ra, imm, _, rfl, rfl, rfl⟩
      · exact .inr <| .inr <| .inr <| .inl ⟨ra, imm, _, rfl, rfl, rfl⟩
      · exact .inr <| .inr <| .inr <| .inl ⟨ra, imm, _, rfl, rfl, rfl⟩
      · exact .inr <| .inr <| .inr <| .inr <| .inl ⟨ra, imm, rfl, rfl, by omega, by omega, by omega, rfl⟩
    | some p =>
      dsimp only
      rcases drawWord_cases s (mrWord imm c p) with ⟨h1, h⟩ | ⟨w, rest, h1, h⟩ <;> rw [h]
      · exact .inr <| .inr <| .inr <| .inr <| .inr <| .inl ⟨ra, imm, p, rfl, rfl, h1, rfl⟩
      · exact .inr <| .inr <| .inr <| .inr <| .inr <| .inr ⟨ra, imm, p, w, rest, rfl, rfl, h1, rfl⟩
  | gcd rd ra rb =>
    obtain ⟨c, hc, rfl⟩ := onCommand_next.mp (show execGcd rd s = _ from h)
    refine ⟨c, hc, ?_⟩
    split_ifs
    · exact .inl ⟨_, rfl, .inl rfl⟩
    · refine .inr <| .inl ⟨_, _, by simp, by simp, rfl, .inl ?_⟩
      rw [gcdRef_eq_gcd]
      exact Nat.gcd_le_left _ (by omega)
  | modinv rd ra rb =>
    obtain ⟨c, hc, rfl⟩ := onCommand_next.mp (show execModinv rd s = _ from h)
    refine ⟨c, hc, ?_⟩
    split_ifs with h0
    · exact .inl ⟨_, rfl, .inl rfl⟩
    · exact .inl ⟨_, rfl, .inr (.inl rfl)⟩
    · exact .inr <| .inl ⟨_, _, by simp, by simp, rfl, .inr (intMod_lt _ h0)⟩
  | modexp rd ra rb =>
    obtain ⟨c, hc, rfl⟩ := onCommand_next.mp (show execModexp rd s = _ from h)
    refine ⟨c, hc, ?_⟩
    split_ifs
    · exact .inl ⟨_, rfl, .inr (.inr rfl)⟩
    · exact .inr <| .inl ⟨_, _, by simp, by simp, rfl, .inr (modpow_lt _ _ (by omega))⟩
  | modmul rd ra rb =>
    obtain ⟨c, hc, ⟨h0, rfl⟩ | ⟨h0, rfl⟩⟩ := commitReduced_next (show commitReduced rd _ s = _ from h)
    · exact ⟨c, hc, .inl ⟨_, rfl, .inl rfl⟩⟩
    · exact ⟨c, hc, .inr <| .inl ⟨_, _, by simp, by simp, rfl, .inr (Nat.mod_lt _ (by omega))⟩⟩
  | modred rd ra rb =>
    obtain ⟨c, hc, ⟨h0, rfl⟩ | ⟨h0, rfl⟩⟩ := commitReduced_next (show commitReduced rd _ s = _ from h)
    · exact ⟨c, hc, .inl ⟨_, rfl, .inl rfl⟩⟩
    · exact ⟨c, hc, .inr <| .inl ⟨_, _, by simp, by simp, rfl, .inr (Nat.mod_lt _ (by omega))⟩⟩
  | cmp ra rb =>
    obtain ⟨c, hc, rfl⟩ := onCommand_next.mp (show execCmp s = _ from h)
    exact ⟨c, hc, .inr <| .inr <| .inl ⟨ra, rb, rfl, rfl⟩⟩

/-- What one step `MR_WORD(w)` can do. -/
theorem mrWord_cases (rounds : Nat) (c : Ctx) (p : MrProgress) (w : Word) (s : State) :
    ((p.buf ++ [w]).length < candidateWords c.va ∧
      mrWord rounds c p w s = { s with ctx := some { c with mr := some { p with buf := p.buf ++ [w] } } }) ∨
    (candidateWords c.va ≤ (p.buf ++ [w]).length ∧ accepted c.va (p.buf ++ [w]) = false ∧
      mrWord rounds c p w s = { s with ctx := some { c with mr := some { p with buf := [] } } }) ∨
    (candidateWords c.va ≤ (p.buf ++ [w]).length ∧ accepted c.va (p.buf ++ [w]) = true ∧
      mrRound c.va (candidate c.va (p.buf ++ [w]) + 2) = false ∧
      mrWord rounds c p w s = commitOk (·.setPrime false) s) ∨
    (candidateWords c.va ≤ (p.buf ++ [w]).length ∧ accepted c.va (p.buf ++ [w]) = true ∧
      mrRound c.va (candidate c.va (p.buf ++ [w]) + 2) = true ∧ p.i + 1 = rounds ∧
      mrWord rounds c p w s = commitOk (·.setPrime true) s) ∨
    (candidateWords c.va ≤ (p.buf ++ [w]).length ∧ accepted c.va (p.buf ++ [w]) = true ∧
      mrRound c.va (candidate c.va (p.buf ++ [w]) + 2) = true ∧ p.i + 1 ≠ rounds ∧
      mrWord rounds c p w s = { s with ctx := some { c with mr := some { i := p.i + 1, buf := [] } } }) := by
  unfold mrWord
  dsimp only
  split_ifs with h1 h2 h3 h4
  · exact .inl ⟨h1, rfl⟩
  · exact .inr <| .inr <| .inr <| .inl ⟨by omega, h2, h3, h4, rfl⟩
  · exact .inr <| .inr <| .inr <| .inr ⟨by omega, h2, h3, h4, rfl⟩
  · exact .inr <| .inr <| .inl ⟨by omega, h2, by simpa using h3, rfl⟩
  · exact .inr <| .inl ⟨by omega, by simpa using h2, rfl⟩

end Sys2Proof.Machine
end

