-- ==== Sys2Proof/Laws/Invariant.lean ====
section
/-! SUPPORT. Lemmas about the invariant: what it says of an idle state, that it does not depend on the fields of the
surroundings, and that issue keeps it. -/

namespace Sys2Proof.Machine

/-- The operands of a word that decodes to an `MRTEST` are its `ra` and `imm` fields. -/
theorem mrtest_fields {w : Word} {ra imm : Nat} (h : decode w = .command (.mrtest ra imm)) :
    raField w = ra ∧ immField w = imm := by
  obtain ⟨-, h⟩ := decode_command.mp h
  rcases h with h | h | h | h | h | h | h <;> simp at h
  exact ⟨h.2.2.1.symm, h.2.2.2.symm⟩

/-- A candidate takes at least one word (R93). -/
theorem candidateWords_pos {n : Nat} (h : 5 ≤ n) : 1 ≤ candidateWords n := by
  have : 1 ≤ bitlen (n - 4) := by
    unfold bitlen
    rw [if_neg (by omega)]
    omega
  unfold candidateWords candidateBits
  omega

/-- What the invariant asks of an idle state. -/
theorem invariant_idle {s : State} (hl : Config.LegalLimbs s.nlimbs)
    (hx : ∀ i < 8, s.readX i < 2 ^ Config.width s.nlimbs) (hb : s.busy = false) (hc : s.ctx = none)
    (hk : s.code = 0#4) (hf : ¬ (s.eq = true ∧ s.lt = true)) : Invariant s :=
  ⟨hl, hx, by rw [hb, hc]; rfl, by simp [hb], .inl hk, hf, by simp [hc]⟩

/-- The words on offer, the agenda, the bus answer, the host's variable, `IE`, `HOSTERR` and `PRIME` do not matter to the
invariant, and `DONE` may be cleared. -/
theorem invariant_surroundings {s t : State} (h : Invariant s) (hn : t.nlimbs = s.nlimbs) (hx : t.x = s.x)
    (hb : t.busy = s.busy) (hc : t.ctx = s.ctx) (hk : t.code = s.code) (hw : t.cmd = s.cmd) (he : t.eq = s.eq)
    (hl : t.lt = s.lt) (hd : s.done = false → t.done = false) : Invariant t := by
  have hr : ∀ i, t.readX i = s.readX i := fun i => by simp [State.readX, hx]
  refine ⟨hn ▸ h.limbs, fun i hi => by rw [hr, hn]; exact h.regs i hi, by rw [hb, hc]; exact h.busy_iff, fun hb' => ?_,
    hk ▸ h.code_raised, by rw [he, hl]; exact h.flags_exclusive, fun c hc' => ?_⟩
  · rw [hb] at hb'
    rw [hk]
    exact ⟨hd (h.clear_in_flight hb').1, (h.clear_in_flight hb').2⟩
  · have := h.ctx_inv c (hc ▸ hc')
    exact ⟨by rw [hw]; exact this.1, by rw [hr]; exact this.2, by rw [hr]; exact this.3, by rw [hr]; exact this.4,
      this.5, this.6⟩

/-- Issue keeps the invariant, whatever the word (R31). -/
theorem invariant_issue {s : State} (h : Invariant s) (w : Word) : Invariant (s.issue w) := by
  refine ⟨h.limbs, h.regs, rfl, by simp, by simp, h.flags_exclusive, fun c hc => ?_⟩
  obtain rfl := Option.some.inj hc
  refine ⟨rfl, rfl, rfl, rfl, ?_, fun p hp => ?_⟩
  · simp only [State.latch]
    split_ifs with hn <;> simp [hn]
  · simp only [State.latch] at hp ⊢
    split_ifs at hp with hn
    obtain rfl := Option.some.inj hp
    obtain ⟨ra, imm, h1, h2, h3, h4⟩ := (needsWitness_iff _ _).mp hn
    rw [(mrtest_fields h1).2]
    exact ⟨Nat.pos_of_ne_zero h2, candidateWords_pos h4⟩

end Sys2Proof.Machine
end

