-- ==== Sys2Proof/Laws/PerInstr.lean ====
section
/-! SUPPORT. One family of laws about commands as syntax: the fields of a command's encoding (R71, R72, R74). -/

namespace Sys2Proof.Laws.EncodedFields

/-- The fields `(op, rd, ra, rb, rm, imm)` that R72 and R74 give a command, 0 where it uses none. -/
def fields : Instr → Nat × Nat × Nat × Nat × Nat × Nat
  | .mrtest ra imm => (1, 0, ra, 0, 0, imm)
  | .modinv rd ra rm => (2, rd, ra, 0, rm, 0)
  | .gcd rd ra rb => (3, rd, ra, rb, 0, 0)
  | .modexp rd ra rb rm => (4, rd, ra, rb, rm, 0)
  | .modmul rd ra rb rm => (5, rd, ra, rb, rm, 0)
  | .modred rd ra rm => (6, rd, ra, 0, rm, 0)
  | .cmp ra rb => (7, 0, ra, rb, 0, 0)

/-- The encoding of a well-formed command has that command's fields and no reserved bit. -/
def Statement (i : Instr) : Prop :=
  i.WellFormed → (opField (encode i), rdField (encode i), raField (encode i), rbField (encode i), rmField (encode i),
    immField (encode i)) = fields i ∧ reservedSet (encode i) = false

/-- The field law for any field values that fit. -/
theorem of_fields {op rd ra rb rm imm : Nat} (hop : op < 16) (hrd : rd < 8) (hra : ra < 8) (hrb : rb < 8) (hrm : rm < 8)
    (himm : imm < 4096) : ∀ w, w = encodeFields op rd ra rb rm imm →
      (opField w, rdField w, raField w, rbField w, rmField w, immField w) = (op, rd, ra, rb, rm, imm) ∧
      reservedSet w = false := by
  rintro w rfl
  obtain ⟨h1, h2, h3, h4, h5, h6, h7⟩ := fields_encodeFields hop hrd hra hrb hrm himm
  simp [h1, h2, h3, h4, h5, h6, h7]

theorem mrtest (ra imm : Nat) : Statement (.mrtest ra imm) := fun h =>
  of_fields (by decide) (by decide) h.1 (by decide) (by decide) h.2 _ rfl

theorem modinv (rd ra rm : Nat) : Statement (.modinv rd ra rm) := fun h =>
  of_fields (by decide) h.1 h.2.1 (by decide) h.2.2 (by decide) _ rfl

theorem gcd (rd ra rb : Nat) : Statement (.gcd rd ra rb) := fun h =>
  of_fields (by decide) h.1 h.2.1 h.2.2 (by decide) (by decide) _ rfl

theorem modexp (rd ra rb rm : Nat) : Statement (.modexp rd ra rb rm) := fun h =>
  of_fields (by decide) h.1 h.2.1 h.2.2.1 h.2.2.2 (by decide) _ rfl

theorem modmul (rd ra rb rm : Nat) : Statement (.modmul rd ra rb rm) := fun h =>
  of_fields (by decide) h.1 h.2.1 h.2.2.1 h.2.2.2 (by decide) _ rfl

theorem modred (rd ra rm : Nat) : Statement (.modred rd ra rm) := fun h =>
  of_fields (by decide) h.1 h.2.1 (by decide) h.2.2 (by decide) _ rfl

theorem cmp (ra rb : Nat) : Statement (.cmp ra rb) := fun h =>
  of_fields (by decide) (by decide) h.1 h.2 (by decide) (by decide) _ rfl

end Sys2Proof.Laws.EncodedFields
end

