-- ==== Sys2Proof/Laws/Window.lean ====
section
/-! SUPPORT. The window map: where a limb stands, and what stands at an offset. -/

namespace Sys2Proof.Machine

/-- A limb of the machine stands at R51's offset. -/
theorem target_limb_offset {nl i j : Nat} (hl : nl ≤ 256) (hi : i < 8) (hj : j < nl) :
    target nl (0x1000 + 0x400 * i + 4 * j) = some (.limb i j) := by
  have hw : Config.windowBytes = 0x3000 := rfl
  unfold target
  rw [if_neg (by omega), if_neg (by omega), if_neg (by omega), if_neg (by omega), if_neg (by omega), if_pos (by omega)]
  congr 2 <;> omega

/-- An offset that names a limb is R51's offset of that limb. -/
theorem offset_of_target_limb {nl off i j : Nat} (h : target nl off = some (.limb i j)) :
    off = 0x1000 + 0x400 * i + 4 * j ∧ i < 8 ∧ j < nl := by
  have hw : Config.windowBytes = 0x3000 := rfl
  unfold target at h
  repeat' split at h
  all_goals simp only [Option.some.injEq, Target.limb.injEq, reduceCtorEq] at h
  obtain ⟨rfl, rfl⟩ := h
  omega

/-- What is mapped besides limbs: the five control and status registers (R51). -/
theorem target_register {nl off : Nat} {t : Target} (h : target nl off = some t) :
    (off = 0x0000 ∧ t = .cfg) ∨ (off = 0x0004 ∧ t = .ctrl) ∨ (off = 0x0008 ∧ t = .status) ∨
    (off = 0x000C ∧ t = .errcode) ∨ (off = 0x0010 ∧ t = .cmd) ∨
    ∃ i j, t = .limb i j ∧ off = 0x1000 + 0x400 * i + 4 * j ∧ i < 8 ∧ j < nl := by
  have hl : ∀ i j, t = .limb i j → off = 0x1000 + 0x400 * i + 4 * j ∧ i < 8 ∧ j < nl := fun i j e =>
    offset_of_target_limb (e ▸ h)
  unfold target at h
  repeat' split at h
  all_goals simp only [Option.some.injEq, reduceCtorEq] at h
  all_goals subst h
  · exact .inl ⟨‹_›, rfl⟩
  · exact .inr <| .inl ⟨‹_›, rfl⟩
  · exact .inr <| .inr <| .inl ⟨‹_›, rfl⟩
  · exact .inr <| .inr <| .inr <| .inl ⟨‹_›, rfl⟩
  · exact .inr <| .inr <| .inr <| .inr <| .inl ⟨‹_›, rfl⟩
  · exact .inr <| .inr <| .inr <| .inr <| .inr ⟨_, _, rfl, hl _ _ rfl⟩

end Sys2Proof.Machine
end

