-- ==== Sys2Proof/Laws/Run.lean ====
section
/-! SUPPORT. Runs of several steps, the bits of `STATUS`, and the induction over a run, each said once. -/

namespace Sys2Proof.Machine

/-- A run of one step more, when the first step answers a next state. -/
theorem run_succ {s t : State} (h : step s = .next t) (k : Nat) :
    Host.Core.run core (k + 1) s = Host.Core.run core k t := by
  have hc : core.step s = .next t := h
  simp only [Host.Core.run, hc]

/-- What every step keeps holds after any number of steps. -/
theorem run_keeps {P : State → Prop} (hP : ∀ s t : State, P s → step s = .next t → P t)
    (hn : ∀ s : State, P s → ∃ t, step s = .next t) :
    ∀ (k : Nat) (s : State), P s → ∃ t : State, Host.Core.run core k s = .next t ∧ P t
  | 0, s, h => ⟨s, rfl, h⟩
  | k + 1, s, h => by
    obtain ⟨t, ht⟩ := hn s h
    rw [run_succ ht]
    exact run_keeps hP hn k t (hP s t h ht)

/-- The bits of `STATUS` by number (R27). -/
theorem statusWord_bit (s : State) (k : Nat) : s.statusWord.getLsbD k =
    if k = 0 then s.busy else if k = 1 then s.done else if k = 2 then s.err else if k = 3 then s.rndwait
    else if k = 4 then s.eq else if k = 5 then s.lt else if k = 6 then s.prime else if k = 7 then s.hosterr
    else false := by
  unfold State.statusWord
  rcases k with _ | _ | _ | _ | _ | _ | _ | _ | k
  all_goals simp only [BitVec.getLsbD_append]
  all_goals simp

end Sys2Proof.Machine
end

