-- ==== Sys2Proof/Tests/Slice0.lean ====
section
/-! SUPPORT. The model's own tests: ill-formed commands are refused, words of the spec decode as it lists them, one step
of each command gives the values of spec/95_test_vectors.md, and every obligation with hypotheses has a state that meets
them.  Every expected value is the spec's (the vector's name stands beside it); none was taken from the model. -/

namespace Sys2Proof.Tests

open Sys2Proof Sys2Proof.Machine

set_option maxRecDepth 100000

/-! ## States of the tests: `W = 64`, the conventions of 95_test_vectors -/

/-- Reset, then `x0`, `x1`, `x2` loaded, and 57005 in `x3`. -/
def loaded (a b m : Nat) : State := { State.reset with x := #v[a, b, m, 0xDEAD, 0, 0, 0, 0] }

/-- The word `w` issued on the loaded registers. -/
def flying (a b m : Nat) (w : Word) : State := (loaded a b m).issue w

/-- The context of that command. -/
def latched (a b m : Nat) (w : Word) : Ctx := (loaded a b m).latch w

/-- `s` with the next events given. -/
def told (s : State) (es : List Event) : State := { s with agenda := es }

/-- An `MRTEST x0, #imm` of `n` in flight, with words on offer. -/
def testing (n : Nat) (w : Word) (ws : List Word) : State := { flying n 0 0 w with rnd := .exactly ws }

/-- The state after one step, if the machine answers one. -/
def next (s : State) : Option State :=
  match step s with
  | .next t => some t
  | _ => none

/-- `STATUS`, `ERRCODE` and one register after one step. -/
def result (s : State) (i : Nat) : Option (Word × Word × Nat) :=
  (next s).map fun t => (t.statusWord, t.errcodeWord, t.readX i)

/-! ## `WellFormed` refuses -/

theorem test_mrtest_ill_formed : ¬ (Instr.mrtest 8 1).WellFormed ∧ ¬ (Instr.mrtest 0 4096).WellFormed := by decide
theorem test_modinv_ill_formed :
    ¬ (Instr.modinv 8 0 0).WellFormed ∧ ¬ (Instr.modinv 0 8 0).WellFormed ∧ ¬ (Instr.modinv 0 0 8).WellFormed := by decide
theorem test_gcd_ill_formed :
    ¬ (Instr.gcd 8 0 0).WellFormed ∧ ¬ (Instr.gcd 0 8 0).WellFormed ∧ ¬ (Instr.gcd 0 0 8).WellFormed := by decide
theorem test_modexp_ill_formed : ¬ (Instr.modexp 8 0 0 0).WellFormed ∧ ¬ (Instr.modexp 0 8 0 0).WellFormed ∧
    ¬ (Instr.modexp 0 0 8 0).WellFormed ∧ ¬ (Instr.modexp 0 0 0 8).WellFormed := by decide
theorem test_modmul_ill_formed : ¬ (Instr.modmul 8 0 0 0).WellFormed ∧ ¬ (Instr.modmul 0 8 0 0).WellFormed ∧
    ¬ (Instr.modmul 0 0 8 0).WellFormed ∧ ¬ (Instr.modmul 0 0 0 8).WellFormed := by decide
theorem test_modred_ill_formed :
    ¬ (Instr.modred 8 0 0).WellFormed ∧ ¬ (Instr.modred 0 8 0).WellFormed ∧ ¬ (Instr.modred 0 0 8).WellFormed := by decide
theorem test_cmp_ill_formed : ¬ (Instr.cmp 8 0).WellFormed ∧ ¬ (Instr.cmp 0 8).WellFormed := by decide

/-! ## Words of the spec, by the digits of R71 and the vectors V-ENC and V-ILL -/

theorem test_decode_mrtest : decode 0b00000010100000000000000000000001#32 = .command (.mrtest 0 40) ∧
    decode 0xFFF00701#32 = .command (.mrtest 7 4095) ∧ decode 0x00000001#32 = .command (.mrtest 0 0) := by decide
theorem test_decode_modinv : decode 0b00000000000000010000000000100010#32 = .command (.modinv 2 0 1) ∧
    decode 0x00070772#32 = .command (.modinv 7 7 7) := by decide
theorem test_decode_gcd : decode 0b00000000000000000001000000100011#32 = .command (.gcd 2 0 1) ∧
    decode 0x00007773#32 = .command (.gcd 7 7 7) := by decide
theorem test_decode_modexp : decode 0b00000000000000110010010001010100#32 = .command (.modexp 5 4 2 3) ∧
    decode 0x00077774#32 = .command (.modexp 7 7 7 7) := by decide
theorem test_decode_modmul : decode 0b00000000000001000101010101010101#32 = .command (.modmul 5 5 5 4) ∧
    decode 0x00077775#32 = .command (.modmul 7 7 7 7) := by decide
theorem test_decode_modred : decode 0b00000000000000100000000000010110#32 = .command (.modred 1 0 2) ∧
    decode 0x00070776#32 = .command (.modred 7 7 7) := by decide
theorem test_decode_cmp : decode 0b00000000000000000100011000000111#32 = .command (.cmp 6 4) ∧
    decode 0x00007707#32 = .command (.cmp 7 7) := by decide
theorem test_decode_illegal : ∀ w ∈ [0x00000000#32, 0xFFFFFFFF#32, 0x00000008#32, 0x00000081#32, 0x00000804#32,
    0x00080004#32, 0x00008004#32, 0x00000011#32, 0x00001001#32, 0x00010001#32, 0x00100002#32, 0x00001002#32, 0x00010003#32,
    0x00100003#32, 0x00001006#32, 0x00000017#32, 0x00100007#32], ∀ i, decode w ≠ .command i := by
  simp only [List.forall_mem_cons]
  refine ⟨?_, ?_, ?_, ?_, ?_, ?_, ?_, ?_, ?_, ?_, ?_, ?_, ?_, ?_, ?_, ?_, ?_, by simp⟩ <;> intro i h <;> cases h
theorem test_encode : encode (.mrtest 1 3) = 0x00300101#32 ∧ encode (modsqr 5 5 4) = 0x00045555#32 ∧
    encode (.modinv 0 0 0) = 0x00000002#32 ∧ encode (enc 3 0 1 2) = 0x00021034#32 := by decide
theorem test_table_word : decodeTableWord 32 0x00001023 = some (.gcd 2 0 1) ∧ decodeTableWord 32 8 = none := by decide

/-! ## One step of each command -/

/-- V-GCD2, V-GCD4. -/
theorem test_gcd : result (flying 18 48 0 0x00001023#32) 2 = some (0x02#32, 0#32, 6) ∧
    result (flying 0 5 0xDEAD 0x00001023#32) 2 = some (0x06#32, 1#32, 0xDEAD) := by decide
/-- V-GCD14: the destination is both sources. -/
theorem test_gcd_aliased : result (flying 12 0 0 0x00000003#32) 0 = some (0x02#32, 0#32, 12) := by decide
/-- V-INV1, V-INV3. -/
theorem test_modinv : result (flying 791 3120 0 0x00010022#32) 2 = some (0x02#32, 0#32, 71) ∧
    result (flying 3 7 0 0x00010022#32) 2 = some (0x02#32, 0#32, 5) := by decide
/-- V-INV4, V-INV7, V-INV11, V-INV5. -/
theorem test_modinv_corners : result (flying 10 4 0 0x00010022#32) 2 = some (0x06#32, 2#32, 0) ∧
    result (flying 0 5 0 0x00010022#32) 2 = some (0x06#32, 2#32, 0) ∧
    result (flying 0 0 0 0x00010022#32) 2 = some (0x06#32, 1#32, 0) ∧
    result (flying 0 1 0 0x00010022#32) 2 = some (0x02#32, 0#32, 0) := by decide
/-- V-EXP1, V-EXP18. -/
theorem test_modexp : result (flying 65 71 3233 0x00021034#32) 3 = some (0x02#32, 0#32, 2140) ∧
    result (flying (2 ^ 64 - 60) (2 ^ 64 - 1) (2 ^ 64 - 59) 0x00021034#32) 3 =
      some (0x02#32, 0#32, 2 ^ 64 - 60) := by decide
/-- V-EXP6, V-EXP9, V-EXP13, V-EXP15. -/
theorem test_modexp_corners : result (flying 0 0 5 0x00021034#32) 3 = some (0x02#32, 0#32, 1) ∧
    result (flying 0 0 1 0x00021034#32) 3 = some (0x02#32, 0#32, 0) ∧
    result (flying 3233 1 3233 0x00021034#32) 3 = some (0x06#32, 6#32, 57005) ∧
    result (flying 0 1 0 0x00021034#32) 3 = some (0x06#32, 6#32, 57005) := by decide
/-- V-MUL2, V-MUL3. -/
theorem test_modmul : result (flying (2 ^ 64 - 1) (2 ^ 64 - 1) (2 ^ 64 - 59) 0x00021035#32) 3 =
      some (0x02#32, 0#32, 3364) ∧
    result (flying 5 7 0 0x00021035#32) 3 = some (0x06#32, 1#32, 57005) := by decide
/-- V-RED1, V-RED7, V-RED6. -/
theorem test_modred : result (flying 1000 57005 7 0x00020016#32) 1 = some (0x02#32, 0#32, 6) ∧
    result (flying (2 ^ 64 - 1) 57005 (2 ^ 64 - 59) 0x00020016#32) 1 = some (0x02#32, 0#32, 58) ∧
    result (flying 5 57005 0 0x00020016#32) 1 = some (0x06#32, 1#32, 57005) := by decide
/-- V-CMP1, V-CMP2, V-CMP3, V-CMP7. -/
theorem test_cmp : result (flying 3233 3127 0 0x00001007#32) 0 = some (0x02#32, 0#32, 3233) ∧
    result (flying 3127 3233 0 0x00001007#32) 0 = some (0x22#32, 0#32, 3127) ∧
    result (flying 3233 3233 0 0x00001007#32) 0 = some (0x12#32, 0#32, 3233) ∧
    result (flying (2 ^ 63) (2 ^ 63 - 1) 0 0x00001007#32) 0 = some (0x02#32, 0#32, 2 ^ 63) := by decide
/-- V-MR1 to V-MR7: the checks before any witness. -/
theorem test_mrtest_checks : result (flying 0 0 0 0x00100001#32) 0 = some (0x02#32, 0#32, 0) ∧
    result (flying 1 0 0 0x00100001#32) 0 = some (0x02#32, 0#32, 1) ∧
    result (flying 2 0 0 0x00100001#32) 0 = some (0x42#32, 0#32, 2) ∧
    result (flying 3 0 0 0x02800001#32) 0 = some (0x42#32, 0#32, 3) ∧
    result (flying 4 0 0 0x00100001#32) 0 = some (0x02#32, 0#32, 4) ∧
    result (flying 5 0 0 0x00000001#32) 0 = some (0x06#32, 1#32, 5) ∧
    result (flying 2 0 0 0x00000001#32) 0 = some (0x06#32, 1#32, 2) := by decide
/-- V-MR16, V-MR20, V-MR14 and V-PRO1: a liar, a witness of compositeness, a rejected candidate, the hold. -/
theorem test_mrtest_words : result (testing 221 0x00100001#32 [0xAC#32]) 0 = some (0x42#32, 0#32, 221) ∧
    result (testing 221 0x02800001#32 [0x15#32]) 0 = some (0x02#32, 0#32, 221) ∧
    result (testing 9 0x00100001#32 [6#32]) 0 = some (0x09#32, 0#32, 9) ∧
    result (testing 221 0x02800001#32 []) 0 = some (0x09#32, 0#32, 221) := by decide
/-- V-ILL1: an illegal word. -/
theorem test_illegal_word : result (flying 48 18 0 0#32) 0 = some (0x06#32, 7#32, 48) := by decide

/-! ## The reference computations -/

/-- V-MR37 in part: 174 is a liar for 221 and 137 is none. -/
theorem test_mrRound : mrRound 221 174 = true ∧ mrRound 221 137 = false ∧ mrRound 561 50 = true ∧
    mrRound 561 2 = false := by decide
/-- V-MR29: the long squaring loop. -/
theorem test_mrRound_long : mrRound (2 ^ 32 + 1) 3 = false ∧ mrRound (2 ^ 32 + 15) 3 = true := by decide
/-- V-MR17, V-MR18, V-MR19, V-MR35: the verdict and the words used. -/
theorem test_mrtestVerdict : mrtestVerdict 221 2 [0xAC#32, 0x87#32] = some (false, 2) ∧
    mrtestVerdict 221 1 [0xFFFFFFDA#32, 0x12345687#32] = some (false, 2) ∧
    mrtestVerdict 221 2 [0xAC#32] = none ∧
    mrtestVerdict (2 ^ 64 - 59) 1 [0xFFFFFFFF#32, 0xFFFFFFFF#32, 0xFFFFFFC2#32, 0xFFFFFFFF#32] = none := by decide
/-- R93: the words of 221's candidates, and the sizes at the largest operand (R99). -/
theorem test_candidate : candidateBits 221 = 8 ∧ candidateWords 221 = 1 ∧ candidate 221 [0xAC#32] = 172 ∧
    accepted 221 [0xFFFFFFDA#32] = false ∧ candidateWords (2 ^ 64 - 1) = 2 := by decide

/-! ## The window -/

/-- The bus answer after the first event. -/
def answered (s : State) (t : Transaction) : Option BusAnswer := (next (told s [.host t])).bind (·.answers.head?)

/-- V-WIN1, V-WIN6, V-WIN7, V-WIN8, V-WIN10, V-WIN11, V-WIN12. -/
theorem test_window_reads : answered State.reset (.read 0x000 4) = some (.okData 0x01080002#32) ∧
    answered State.reset (.read 0x014 4) = some .busError ∧ answered State.reset (.read 0x009 4) = some .busError ∧
    answered State.reset (.read 0x008 2) = some .busError ∧ answered State.reset (.read 0x1008 4) = some .busError ∧
    answered State.reset (.read 0x2C04 4) = some (.okData 0#32) ∧
    answered State.reset (.read 0x2FFC 4) = some .busError ∧ answered State.reset (.read 0x3000 4) = none := by decide
/-- V-WIN9, V-WIN13: limbs, least significant first. -/
theorem test_limbs : answered (loaded 0xAB54A98CEB1F0AD2 0 0) (.read 0x1000 4) = some (.okData 0xEB1F0AD2#32) ∧
    answered (loaded 0xAB54A98CEB1F0AD2 0 0) (.read 0x1004 4) = some (.okData 0xAB54A98C#32) ∧
    (next (told (loaded 5 0 0) [.host (.write 0x1004 4 1#32)])).map (·.readX 0) = some 4294967301 := by decide
/-- V-PRO2, V-PRO3, V-PRO4 and V-WIN4: dropped writes, the clearing of `HOSTERR`, and `CTRL`. -/
theorem test_protocol :
    (next (told (testing 221 0x02800001#32 []) [.host (.write 0x1000 4 7#32)])).map
      (fun t => (t.readX 0, t.statusWord, t.answers)) = some (221, 0x89#32, [.ok]) ∧
    (next (told (testing 221 0x02800001#32 []) [.host (.write 0x010 4 0x00001007#32)])).map
      (fun t => (t.cmd, t.statusWord)) = some (0x02800001#32, 0x89#32) ∧
    (next (told { testing 221 0x02800001#32 [] with hosterr := true } [.host (.write 0x008 4 0x80#32)])).map
      (·.statusWord) = some 0x09#32 ∧
    (next (told State.reset [.host (.write 0x004 4 0xFFFFFFFF#32)])).map (·.ctrlWord) = some 1#32 := by decide
/-- V-PRO10: reset while the engine holds. -/
theorem test_reset_in_flight : (next (told (testing 221 0x02800001#32 []) [.reset])).map
    (fun t => (t.statusWord, t.cmd, t.readX 0, t.rndReady)) = some (0#32, 0#32, 0, false) := by decide
/-- R79: the transactions of `LDX` and the two branches of `IF`. -/
theorem test_script : Script.ldx 2 0 0xAB54A98CEB1F0AD2 =
      [.host (.write 0x1000 4 0xEB1F0AD2#32), .host (.write 0x1004 4 0xAB54A98C#32)] ∧
    (next (told { State.reset with seen := 0x42#32 } (Script.ifFlag 6 true Script.rde Script.ack))).map (·.agenda) =
      some [.host (.read 0x000C 4), .skip 1, .host (.write 0x0008 4 2#32)] ∧
    (next (told State.reset (Script.ifFlag 6 true Script.rde Script.ack))).map (·.agenda) =
      some [.host (.write 0x0008 4 2#32)] := by decide

/-- R79: `RDX` sums the limbs it read, limb 0 first (V-WIN9); `RND` offers its words and then nothing. -/
theorem test_rdx : Script.rdxValue 2 { State.reset with answers := [.okData 0xAB54A98C#32, .okData 0xEB1F0AD2#32, .ok] } =
    12345678901234567890 := by decide

/-- R185: a listed source ends, a repeating one does not. -/
theorem test_source : (Source.exactly [1#32, 2#32]).upcoming 5 = [1#32, 2#32] ∧
    Source.upcoming 4 { words := [1#32], more := .repeating [2#32, 3#32] } = [1#32, 2#32, 3#32, 2#32] := by decide

/-! ## Witnesses: each obligation's hypotheses are met by a state written here -/

theorem witness_DecodeAndEncodeAgree : (Instr.mrtest 7 4095).WellFormed ∧ (Instr.mrtest 0 0).WellFormed ∧
    (Instr.modinv 7 7 7).WellFormed ∧ (Instr.gcd 7 7 7).WellFormed ∧ (Instr.modexp 7 7 7 7).WellFormed ∧
    (Instr.modmul 7 7 7 7).WellFormed ∧ (Instr.modred 7 7 7).WellFormed ∧ (Instr.cmp 7 7).WellFormed ∧
    decode 0x00007773#32 = .command (.gcd 7 7 7) := by decide

theorem witness_CmdWriteWhileIdleIssues :
    (∃ s : State, s.busy = false ∧ s.agenda = .host (.write 0x0010 4 0x00100001#32) :: [] ∧
      ∃ ra imm, decode 0x00100001#32 = .command (.mrtest ra imm) ∧ imm ≠ 0 ∧ s.readX ra % 2 = 1 ∧ 5 ≤ s.readX ra) ∧
    (∃ s : State, s.busy = false ∧ s.agenda = .host (.write 0x0010 4 0x00001023#32) :: [] ∧
      ¬ ∃ ra imm, decode 0x00001023#32 = .command (.mrtest ra imm) ∧ imm ≠ 0 ∧ s.readX ra % 2 = 1 ∧ 5 ≤ s.readX ra) :=
  ⟨⟨told (loaded 5 0 0) [.host (.write 0x0010 4 0x00100001#32)], rfl, rfl, 0, 1, by decide⟩,
    ⟨told (loaded 5 0 0) [.host (.write 0x0010 4 0x00001023#32)], rfl, rfl, by rintro ⟨_, _, h, _⟩; cases h⟩⟩

theorem witness_StepRunsTheDecodedCommand :
    ((flying 48 18 0 0x00001023#32).ctx = some (latched 48 18 0 0x00001023#32) ∧
      decode (latched 48 18 0 0x00001023#32).word = .command (.gcd 2 0 1) ∧
      (flying 48 18 0 0x00001023#32).agenda = []) ∧
    (told (flying 48 18 0 0x00001023#32) [.engine]).ctx = some (latched 48 18 0 0x00001023#32) ∧
      (told (flying 48 18 0 0x00001023#32) [.engine]).agenda = .engine :: [] := by decide

theorem witness_PlacedWordRunsNext : decode 0x00001023#32 = .command (.gcd 2 0 1) := by decide

theorem witness_IllegalWordCompletesWithIllegalCommand :
    (flying 48 18 0 0#32).ctx = some (latched 48 18 0 0#32) ∧
    decode (latched 48 18 0 0#32).word = .illegal .unknownOpcode ∧ (flying 48 18 0 0#32).agenda = [] ∧
    (told (flying 48 18 0 0#32) [.engine]).agenda = .engine :: [] := by decide

/-- What the statements about one command's result assume of a state and its command in flight. -/
abbrev InFlight (a b m : Nat) (w : Word) : Prop :=
  (flying a b m w).ctx = some (latched a b m w) ∧ (latched a b m w).mr = none

theorem witness_GcdWritesTheGreatestCommonDivisor :
    (InFlight 0 5 0 0x00001073#32 ∧ (latched 0 5 0 0x00001073#32).va = 0) ∧
    (InFlight 48 18 0 0x00001073#32 ∧ (latched 48 18 0 0x00001073#32).va ≠ 0 ∧
      (latched 48 18 0 0x00001073#32).vb ≠ 0) := by decide

theorem witness_ModinvWritesTheInverse :
    (InFlight 7 0 0 0x00010022#32 ∧ (latched 7 0 0 0x00010022#32).vm = 0) ∧
    (InFlight 10 4 0 0x00010022#32 ∧ (latched 10 4 0 0x00010022#32).vm ≠ 0 ∧
      Nat.gcd (latched 10 4 0 0x00010022#32).va (latched 10 4 0 0x00010022#32).vm ≠ 1) ∧
    (InFlight 0 1 0 0x00010022#32 ∧ (latched 0 1 0 0x00010022#32).vm ≠ 0 ∧
      Nat.gcd (latched 0 1 0 0x00010022#32).va (latched 0 1 0 0x00010022#32).vm = 1) := by decide

theorem witness_ModexpWritesThePower :
    (InFlight 3233 1 3233 0x00021034#32 ∧
      (latched 3233 1 3233 0x00021034#32).vm ≤ (latched 3233 1 3233 0x00021034#32).va) ∧
    (InFlight 3232 1 3233 0x00021034#32 ∧
      (latched 3232 1 3233 0x00021034#32).va < (latched 3232 1 3233 0x00021034#32).vm) := by decide

theorem witness_ModmulWritesTheReducedProduct :
    (InFlight 5 7 0 0x00021035#32 ∧ (latched 5 7 0 0x00021035#32).vm = 0) ∧
    (InFlight 5 7 1 0x00021035#32 ∧ (latched 5 7 1 0x00021035#32).vm ≠ 0) := by decide

theorem witness_ModredWritesTheRemainder :
    (InFlight 5 0 0 0x00020016#32 ∧ (latched 5 0 0 0x00020016#32).vm = 0) ∧
    (InFlight 5 0 1 0x00020016#32 ∧ (latched 5 0 1 0x00020016#32).vm ≠ 0) := by decide

theorem witness_CmpWritesEqAndLt : InFlight 0 (2 ^ 64 - 1) 0 0x00001007#32 := by decide

theorem witness_MrtestChecksBeforeAnyWitness : InFlight 5 0 0 0x00000001#32 ∧
    (InFlight 1 0 0 0x00100001#32 ∧ (latched 1 0 0 0x00100001#32).va < 2) ∧
    (InFlight 2 0 0 0x00100001#32 ∧ (latched 2 0 0 0x00100001#32).va = 2) ∧
    (InFlight 4 0 0 0x00100001#32 ∧ 2 < (latched 4 0 0 0x00100001#32).va ∧
      (latched 4 0 0 0x00100001#32).va % 2 = 0) ∧
    (InFlight 3 0 0 0x00100001#32 ∧ (latched 3 0 0 0x00100001#32).va = 3) := by decide

/-- `MRTEST x0, #2` of `2^64 - 1` (two words a candidate) or 221 (one word), with the progress of a fresh test. -/
theorem witness_MrtestTakesOneWordAStep :
    (testing 221 0x00200001#32 []).ctx = some (latched 221 0 0 0x00200001#32) ∧
    (latched 221 0 0 0x00200001#32).mr = some { i := 0, buf := [] } ∧
    (latched (2 ^ 64 - 1) 0 0 0x00200001#32).mr = some { i := 0, buf := [] } ∧
    [0#32].length < (bitlen (2 ^ 64 - 1 - 4) + 31) / 32 ∧
    ((bitlen (221 - 4) + 31) / 32 ≤ [218#32].length ∧ 221 - 4 < wordsValue [218#32] % 2 ^ bitlen (221 - 4)) ∧
    (wordsValue [0x87#32] % 2 ^ bitlen (221 - 4) ≤ 221 - 4 ∧
      mrRound 221 (wordsValue [0x87#32] % 2 ^ bitlen (221 - 4) + 2) = false) ∧
    (wordsValue [0xAC#32] % 2 ^ bitlen (221 - 4) ≤ 221 - 4 ∧
      mrRound 221 (wordsValue [0xAC#32] % 2 ^ bitlen (221 - 4) + 2) = true ∧ 0 + 1 = 1 ∧ 0 + 1 ≠ 2) := by decide

/-- A completion of each command that writes a register, and of the two that write flags. -/
theorem witness_frames : (∃ t, exec (.modinv 7 0 1) (flying 3 7 0 0x00010072#32) = .next t) ∧
    (∃ t, exec (.gcd 7 0 1) (flying 48 18 0 0x00001073#32) = .next t) ∧
    (∃ t, exec (.modexp 0 0 1 2) (flying 65 71 3233 0x00021004#32) = .next t) ∧
    (∃ t, exec (.modmul 0 0 1 2) (flying 5 7 9 0x00021005#32) = .next t) ∧
    (∃ t, exec (.modred 0 0 2) (flying 5 7 9 0x00020006#32) = .next t) ∧
    (∃ t, exec (.cmp 0 1) (flying 5 7 9 0x00001007#32) = .next t) ∧
    (∃ t, exec (.mrtest 0 1) (testing 221 0x00100001#32 [0xAC#32]) = .next t) :=
  ⟨⟨_, rfl⟩, ⟨_, rfl⟩, ⟨_, rfl⟩, ⟨_, rfl⟩, ⟨_, rfl⟩, ⟨_, rfl⟩, ⟨_, rfl⟩⟩

/-- One command of each kind, registers aliased, and the three kinds of `MRTEST` operand. -/
theorem witness_IssueThenCompleteComputesTheContract :
    ∀ i ∈ [Instr.modinv 1 1 1, .gcd 0 0 0, .modexp 0 0 0 1, .modmul 7 0 0 1, .modred 0 0 0, .cmp 7 7, .mrtest 0 0,
      .mrtest 1 4095, .mrtest 0 1], i.WellFormed ∧ (loaded 5 3 0).busy = false ∧
    (told (loaded 5 3 0) [.host (.write 0x0010 4 (encode i)), .engine]).agenda =
      .host (.write 0x0010 4 (encode i)) :: .engine :: [] := by
  simp only [List.forall_mem_cons]
  refine ⟨?_, ?_, ?_, ?_, ?_, ?_, ?_, ?_, ?_, by simp⟩ <;> decide

/-- Idle states of the tests meet the invariant. -/
theorem invariant_loaded {a b m : Nat} (ha : a < 2 ^ 64) (hb : b < 2 ^ 64) (hm : m < 2 ^ 64) :
    Invariant (loaded a b m) := by
  refine invariant_idle (show Config.LegalLimbs 2 by decide) (fun i hi => ?_) rfl rfl rfl
    (show ¬ (false = true ∧ false = true) by decide)
  change _ < 2 ^ 64
  have hx : (loaded a b m).readX i = (#v[a, b, m, 0xDEAD, 0, 0, 0, 0] : Vector Nat 8)[i]?.getD 0 := rfl
  rw [hx]
  interval_cases i <;> simp <;> omega

/-- The invariant of a test in flight with words on offer. -/
theorem invariant_testing {n : Nat} (hn : n < 2 ^ 64) (w : Word) (ws : List Word) : Invariant (testing n w ws) :=
  invariant_surroundings (invariant_issue (invariant_loaded hn (by decide) (by decide)) w)
    rfl rfl rfl rfl rfl rfl rfl rfl id

theorem witness_ErrorsAreRaisedExactlyWhenListed :
    (Invariant (flying 10 4 0 0x00010022#32) ∧
      (flying 10 4 0 0x00010022#32).ctx = some (latched 10 4 0 0x00010022#32) ∧
      decode (latched 10 4 0 0x00010022#32).word = .command (.modinv 2 0 1)) ∧
    (Invariant (testing 221 0x00200001#32 []) ∧
      (testing 221 0x00200001#32 []).ctx = some (latched 221 0 0 0x00200001#32) ∧
      decode (latched 221 0 0 0x00200001#32).word = .command (.mrtest 0 2)) :=
  ⟨⟨invariant_issue (invariant_loaded (by decide) (by decide) (by decide)) _, by decide⟩,
    ⟨invariant_testing (by decide) _ _, by decide⟩⟩

theorem witness_AnErrorChangesNothingElse :
    (∃ s t : State, Invariant s ∧ s.busy = true ∧ step s = .next t ∧ t.code ≠ 0#4 ∧ s.agenda = []) ∧
    (∃ s t : State, Invariant s ∧ s.busy = true ∧ step s = .next t ∧ t.code ≠ 0#4 ∧ s.agenda = .engine :: []) :=
  ⟨⟨testing 0 0x00001023#32 [], _, invariant_testing (by decide) _ _, rfl, rfl, by decide, rfl⟩,
    ⟨told (testing 0 0x00001023#32 []) [.engine], _, invariant_surroundings
      (invariant_testing (n := 0) (by decide) 0x00001023#32 []) rfl rfl rfl rfl rfl rfl rfl rfl id, rfl, rfl, by decide, rfl⟩⟩

theorem witness_LimbReadAnswersTheLimb : Config.LegalLimbs State.reset.nlimbs ∧
    (told State.reset [.host (.read 0x1000 4)]).agenda = .host (.read (0x1000 + 0x400 * 0 + 4 * 0) 4) :: [] ∧
    (told State.reset [.host (.read 0x2C04 4)]).agenda = .host (.read (0x1000 + 0x400 * 7 + 4 * 1) 4) :: [] ∧
    (1 < State.reset.nlimbs) ∧
    ((loaded 0 0 0x0000000100000002).nlimbs = 2 ∧ (loaded 0 0 0x0000000100000002).readX 2 = 0x0000000100000002) := by
  decide

theorem witness_LimbWriteWhileIdleReplacesOneLimb : Config.LegalLimbs State.reset.nlimbs ∧ 1 < State.reset.nlimbs ∧
    State.reset.busy = false ∧ (told State.reset [.host (.write 0x2C04 4 5#32)]).agenda =
      .host (.write (0x1000 + 0x400 * 7 + 4 * 1) 4 5#32) :: [] := by decide

theorem witness_LdxLoadsTheValue : Invariant (told (loaded 1 2 3) (Script.ldx 2 7 (2 ^ 64 - 1) ++ [])) ∧
    (loaded 1 2 3).busy = false ∧ 2 ^ 64 - 1 < 2 ^ Config.width (loaded 1 2 3).nlimbs ∧
    (told (loaded 1 2 3) (Script.ldx 2 7 (2 ^ 64 - 1) ++ [])).agenda =
      Script.ldx (loaded 1 2 3).nlimbs 7 (2 ^ 64 - 1) ++ [] :=
  ⟨invariant_surroundings (invariant_loaded (a := 1) (b := 2) (m := 3) (by decide) (by decide) (by decide))
    rfl rfl rfl rfl rfl rfl rfl rfl id, by decide⟩

theorem witness_WritesWhileBusyAreDropped : Config.LegalLimbs (flying 48 18 0 0x00001023#32).nlimbs ∧
    (flying 48 18 0 0x00001023#32).busy = true ∧ (7 < 8 ∧ 1 < (flying 48 18 0 0x00001023#32).nlimbs) ∧
    (told (flying 48 18 0 0x00001023#32) [.host (.write 0x2C04 4 5#32)]).agenda =
      .host (.write (0x1000 + 0x400 * 7 + 4 * 1) 4 5#32) :: [] ∧
    (told (flying 48 18 0 0x00001023#32) [.host (.write 0x0010 4 5#32)]).agenda =
      .host (.write 0x0010 4 5#32) :: [] := by decide

/-- One offset for each reason: the size, the alignment, the gap below the limbs, the first limb that does not exist. -/
theorem witness_UnsupportedTransactionsChangeNothing : Config.LegalLimbs State.reset.nlimbs ∧
    (0x0008 < 0x3000 ∧ 8 ≠ 4) ∧ (0x0009 < 0x3000 ∧ 0x0009 % 4 ≠ 0) ∧
    (∀ off ∈ [0x0014, 0x0FFC, 0x1008, 0x2FFC], off < 0x3000 ∧ 0x0014 ≤ off ∧
      ¬ ∃ i j, i < 8 ∧ j < State.reset.nlimbs ∧ off = 0x1000 + 0x400 * i + 4 * j) ∧
    (told State.reset [.host (.read 0x0014 4)]).agenda = .host (.read 0x0014 4) :: [] ∧
    (told State.reset [.host (.write 0x0014 4 1#32)]).agenda = .host (.write 0x0014 4 1#32) :: [] := by
  have hn : State.reset.nlimbs = 2 := rfl
  refine ⟨by decide, by decide, by decide, fun off h => ?_, rfl, rfl⟩
  simp only [List.mem_cons, List.not_mem_nil, or_false] at h
  refine ⟨by omega, by omega, ?_⟩
  rintro ⟨i, j, hi, hj, he⟩
  omega

theorem witness_control_writes :
    (told State.reset [.host (.write 0x0004 4 1#32)]).agenda = .host (.write 0x0004 4 1#32) :: [] ∧
    (told State.reset [.host (.write 0x0008 4 0x82#32)]).agenda = .host (.write 0x0008 4 0x82#32) :: [] ∧
    (told State.reset [.host (.write 0x0000 4 1#32)]).agenda = .host (.write 0x0000 4 1#32) :: [] ∧
    (told State.reset [.host (.write 0x000C 4 1#32)]).agenda = .host (.write 0x000C 4 1#32) :: [] ∧
    (told State.reset [.reset]).agenda = .reset :: [] ∧
    Config.LegalLimbs State.reset.nlimbs ∧ State.reset.nlimbs = 2 := by decide

theorem witness_ReadsHaveNoSideEffect :
    (told State.reset [.host (.read 0x0008 4)]).agenda = .host (.read 0x0008 4) :: [] ∧
    (told State.reset [.host (.read 0x0008 4)]).windowRead 0x0008 = some 0#32 := by decide

theorem witness_InvariantHoldsAtReset : Config.LegalLimbs 1 ∧ Config.LegalLimbs 256 := by decide

theorem witness_EveryStepKeepsTheInvariant : ∃ s t : State, Invariant s ∧ step s = .next t ∧ t ≠ s :=
  ⟨testing 221 0x00200001#32 [0xAC#32], _, invariant_testing (by decide) _ _, rfl, by decide⟩

theorem witness_FlagsAreWrittenOnlyByTheirCommand :
    (∃ s t : State, step s = .next t ∧ t.eq ≠ s.eq) ∧ (∃ s t : State, step s = .next t ∧ t.lt ≠ s.lt) ∧
    (∃ s t : State, step s = .next t ∧ t.prime ≠ s.prime) :=
  ⟨⟨flying 3 3 0 0x00001007#32, _, rfl, by decide⟩, ⟨flying 3 4 0 0x00001007#32, _, rfl, by decide⟩,
    ⟨flying 2 0 0 0x00100001#32, _, rfl, by decide⟩⟩

theorem witness_HosterrIsSticky :
    (∃ s t : State, step s = .next t ∧ s.hosterr = true ∧ t.hosterr = false) ∧
    (∃ s t : State, step s = .next t ∧ s.hosterr = false ∧ t.hosterr = true) ∧
    (∃ s t : State, step s = .next t ∧ s.hosterr = false ∧ t.hosterr = true ∧
      s.agenda = .host (.write (0x1000 + 0x400 * 7 + 4 * 1) 4 0#32) :: []) :=
  ⟨⟨told { State.reset with hosterr := true } [.host (.write 0x0008 4 0x80#32)], _, rfl, by decide⟩,
    ⟨told (flying 48 18 0 0x00001023#32) [.host (.write 0x0010 4 0#32)], _, rfl, by decide⟩,
    ⟨told (flying 48 18 0 0x00001023#32) [.host (.write 0x2C04 4 0#32)], _, rfl, by decide⟩⟩

theorem witness_HostCannotDisturbACommandInFlight : ∃ s t : State, s.busy = true ∧
    s.agenda = .host (.write 0x1000 4 7#32) :: [] ∧ step s = .next t :=
  ⟨told (testing 221 0x02800001#32 []) [.host (.write 0x1000 4 7#32)], _, rfl, rfl, rfl⟩

/-- Two states with one context and different destinations, flags and neighbours. -/
theorem witness_ResultDependsOnTheLatchedValuesOnly : ∃ s s' t t' : State, (Instr.gcd 2 0 1).WellFormed ∧ s ≠ s' ∧
    s.ctx = s'.ctx ∧ s.rnd = s'.rnd ∧ s.code = s'.code ∧ s.code = 0#4 ∧ exec (.gcd 2 0 1) s = .next t ∧
    exec (.gcd 2 0 1) s' = .next t' ∧ t.code = 0#4 ∧ t.ctx = none :=
  ⟨flying 48 18 0 0x00001023#32, { flying 48 18 0 0x00001023#32 with prime := true, x := #v[1, 2, 3, 4, 5, 6, 7, 8] },
    _, _, by decide, by decide, rfl, rfl, rfl, rfl, rfl, rfl, rfl, rfl⟩

theorem witness_CompleteStepEndsTheCommand : (Invariant (flying 48 18 0 0x00001023#32) ∧
      InFlight 48 18 0 0x00001023#32 ∧ (flying 48 18 0 0x00001023#32).agenda = []) ∧
    (Invariant (told (flying 48 18 0 0x00001023#32) [.engine]) ∧
      (told (flying 48 18 0 0x00001023#32) [.engine]).agenda = .engine :: []) :=
  ⟨⟨invariant_issue (invariant_loaded (by decide) (by decide) (by decide)) _, by decide⟩,
    ⟨invariant_surroundings
      (invariant_issue (invariant_loaded (a := 48) (b := 18) (m := 0) (by decide) (by decide) (by decide)) 0x00001023#32)
      rfl rfl rfl rfl rfl rfl rfl rfl id, by decide⟩⟩

theorem witness_NoWordHoldsForEver : Invariant (testing 221 0x02800001#32 []) ∧
    (testing 221 0x02800001#32 []).ctx = some (latched 221 0 0 0x02800001#32) ∧
    (latched 221 0 0 0x02800001#32).mr = some { i := 0, buf := [] } ∧
    (testing 221 0x02800001#32 []).rnd.next = none ∧ (testing 221 0x02800001#32 []).agenda = [] :=
  ⟨invariant_testing (by decide) _ _, by decide⟩

theorem witness_WaitReadsStatusUntilDone :
    ((told State.reset [.poll]).agenda = .poll :: [] ∧ (told State.reset [.poll]).done = false) ∧
    ((told { State.reset with done := true } [.poll]).agenda = .poll :: [] ∧
      (told { State.reset with done := true } [.poll]).done = true) := by decide

/-- The least modulus, and the least odd `n` of R92 with its pair. -/
theorem witness_arithmetic : 1 ≤ 1 ∧ (3 ≤ 3 ∧ 3 % 2 = 1 ∧ 3 - 1 = 2 ^ 1 * 1 ∧ 1 % 2 = 1) := by decide

/-- `n = 5` in one limb and the largest operand in two; both ends of the witness range. -/
theorem witness_WitnessesCoverTheirRange :
    (5 ≤ 5 ∧ 5 % 2 = 1 ∧ 5 < 2 ^ Config.width 1) ∧
    (5 ≤ 2 ^ 64 - 1 ∧ (2 ^ 64 - 1) % 2 = 1 ∧ 2 ^ 64 - 1 < 2 ^ Config.width 2) ∧
    ([0xAC#32].length = candidateWords 221 ∧ accepted 221 [0xAC#32] = true) ∧
    (2 ≤ 2 ∧ 2 ≤ 221 - 2) ∧ (2 ≤ 219 ∧ 219 ≤ 221 - 2) := by decide

theorem witness_RoundPassesExactlyWhen : 5 ≤ 5 ∧ 5 % 2 = 1 ∧ 2 ≤ 3 ∧ 3 ≤ 5 - 2 := by decide

theorem witness_APrimePassesEveryRound : Nat.Prime 5 ∧ 5 ≤ 5 ∧ 2 ≤ 3 ∧ 3 ≤ 5 - 2 := by norm_num

theorem witness_APrimeIsNeverDeclaredComposite : ∃ (s t : State) (c : Ctx), Invariant s ∧ s.ctx = some c ∧
    decode c.word = .command (.mrtest 0 1) ∧ Nat.Prime c.va ∧ exec (.mrtest 0 1) s = .next t ∧ t.busy = false ∧
    t.code = 0#4 :=
  ⟨testing 5 0x00100001#32 [0#32], _, latched 5 0 0 0x00100001#32, invariant_testing (by decide) _ _, by decide,
    by decide, by change Nat.Prime 5; norm_num, rfl, by decide, by decide⟩

/-- A test whose words decide it, one whose words are too few, and the verdict on the former's first two words. -/
theorem witness_StepsCarryOutTheRoundsLoop : (∀ ws ∈ [[0xAC#32, 0x87#32], [0xAC#32]],
    Invariant (testing 221 0x00200001#32 ws) ∧ (testing 221 0x00200001#32 ws).agenda = [] ∧
    (testing 221 0x00200001#32 ws).ctx = some (latched 221 0 0 0x00200001#32) ∧
    decode (latched 221 0 0 0x00200001#32).word = .command (.mrtest 0 2) ∧
    (latched 221 0 0 0x00200001#32).mr = some { i := 0, buf := [] } ∧
    (testing 221 0x00200001#32 ws).rnd = .exactly ws) ∧
    mrtestVerdict 221 2 ((Source.exactly [0xAC#32, 0x87#32]).upcoming 2) = some (false, 2) ∧
    (∀ m, mrtestVerdict 221 2 ((Source.exactly []).upcoming m) = none) := by
  refine ⟨fun ws _ => ⟨invariant_testing (by decide) _ _, rfl, rfl, by decide, by decide, rfl⟩, by decide, fun m => ?_⟩
  rw [upcoming_none (by rfl)]
  decide

theorem witness_EnoughEntropyCompletesTheTest : Invariant (testing 5 0x00200001#32 [0#32, 1#32]) ∧
    (testing 5 0x00200001#32 [0#32, 1#32]).agenda = [] ∧
    (testing 5 0x00200001#32 [0#32, 1#32]).ctx = some (latched 5 0 0 0x00200001#32) ∧
    decode (latched 5 0 0 0x00200001#32).word = .command (.mrtest 0 2) ∧
    (latched 5 0 0 0x00200001#32).mr = some { i := 0, buf := [] } ∧
    EntropyEnough (latched 5 0 0 0x00200001#32).va 2 ((testing 5 0x00200001#32 [0#32, 1#32]).rnd.upcoming 2) :=
  ⟨invariant_testing (by decide) _ _, by decide, by decide, by decide, by decide, by unfold EntropyEnough; decide⟩

/-- An `MRTEST x0, #1` of 221 whose source offers 0xFFFFFFFF without end. -/
def rejecting : State :=
  { flying 221 0 0 0x00100001#32 with rnd := { words := [], more := .repeating [0xFFFFFFFF#32] } }

/-- That source offers 0xFFFFFFFF and stays as it is. -/
theorem upcoming_rejecting : ∀ m, rejecting.rnd.upcoming m = List.replicate m 0xFFFFFFFF#32
  | 0 => rfl
  | m + 1 => by
    have h : rejecting.rnd.next = some (0xFFFFFFFF#32, rejecting.rnd) := rfl
    rw [upcoming_succ h, upcoming_rejecting m, List.replicate_succ]

/-- None of its candidates for 221 is accepted (its low 8 bits are 255, above 217). -/
theorem none_accepted : ∀ fuel m, acceptedLoop 221 fuel (List.replicate m 0xFFFFFFFF#32) = 0
  | 0, _ => rfl
  | fuel + 1, m => by
    have hw : candidateWords 221 = 1 := by decide
    unfold acceptedLoop
    rw [hw]
    cases m with
    | zero => rfl
    | succ m =>
      have ha : accepted 221 [0xFFFFFFFF#32] = false := by decide
      simpa [List.replicate_succ, ha] using none_accepted fuel m

theorem witness_RejectedCandidatesAreDrawnForEver : Invariant rejecting ∧ rejecting.agenda = [] ∧
    rejecting.ctx = some (latched 221 0 0 0x00100001#32) ∧
    (latched 221 0 0 0x00100001#32).mr = some { i := 0, buf := [] } ∧
    (∀ m, (rejecting.rnd.upcoming m).length = m ∧
      acceptedCandidates (latched 221 0 0 0x00100001#32).va (rejecting.rnd.upcoming m) = 0) := by
  refine ⟨invariant_surroundings
    (invariant_issue (invariant_loaded (a := 221) (b := 0) (m := 0) (by decide) (by decide) (by decide)) 0x00100001#32)
    rfl rfl rfl rfl rfl rfl rfl rfl id, rfl, rfl, by decide, fun m => ?_⟩
  rw [upcoming_rejecting]
  exact ⟨by simp, none_accepted _ m⟩

theorem witness_RdxReadsTheValue : Invariant (told (loaded 1 2 3) (Script.rdx 2 7 ++ [])) ∧
    (told (loaded 1 2 3) (Script.rdx 2 7 ++ [])).agenda = Script.rdx (loaded 1 2 3).nlimbs 7 ++ [] :=
  ⟨invariant_surroundings (invariant_loaded (a := 1) (b := 2) (m := 3) (by decide) (by decide) (by decide))
    rfl rfl rfl rfl rfl rfl rfl rfl id, rfl⟩

theorem witness_TransformRoundTrip : Nat.Prime 61 ∧ Nat.Prime 53 ∧ 61 ≠ 53 ∧
    71 * 791 % ((61 - 1) * (53 - 1)) = 1 ∧ 65 < 61 * 53 := by norm_num

end Sys2Proof.Tests
end

section
/-! SUPPORT. What one step of the machine and one host transaction can do, said once: the statements about the state
follow from these cases. -/

namespace Sys2Proof.Machine

/-! ## The step -/

/-- It is the engine's turn, and `rest` is the agenda its step leaves (log entry 2). -/
def EngineTurn (s : State) (rest : List Event) : Prop :=
  (s.agenda = [] ∧ rest = []) ∨ s.agenda = .engine :: rest

theorem step_of_cons {s : State} {e : Event} {rest : List Event} (h : s.agenda = e :: rest) :
    step s = runEvent e { s with agenda := rest } := by
  simp only [step, agendaStep, h]

theorem step_of_engineTurn {s : State} {rest : List Event} (h : EngineTurn s rest) :
    step s = engineStep { s with agenda := rest } := by
  obtain ⟨hs, rfl⟩ | hs := h
  · simp only [step, agendaStep, hs]
    rw [← hs]
  · exact step_of_cons hs

theorem step_of_host {s : State} {tr : Transaction} {rest : List Event} (h : s.agenda = .host tr :: rest) :
    step s = .next (State.transact tr { s with agenda := rest }) := step_of_cons h

/-- The engine runs the command in flight. -/
theorem engineStep_of_command {s : State} {c : Ctx} {i : Instr} (hc : s.ctx = some c)
    (hd : decode c.word = .command i) : engineStep s = exec i s := by
  simp only [engineStep, hc, hd]

/-- One `WAIT` read touches nothing of the block. -/
theorem pollStep_surroundings (s : State) :
    ∃ ag as n, pollStep s = { s with agenda := ag, answers := as, seen := n } := by
  unfold pollStep
  dsimp only
  split
  · exact ⟨s.agenda, _, _, rfl⟩
  · exact ⟨_, _, _, rfl⟩

/-- Everything a step can be: the engine's, a host transaction, reset, or one that leaves the block alone and changes
only what the agents outside it hold. -/
theorem step_cases {s t : State} (h : step s = .next t) :
    (∃ rest, EngineTurn s rest ∧ engineStep { s with agenda := rest } = .next t) ∨
    (∃ tr rest, s.agenda = .host tr :: rest ∧ t = State.transact tr { s with agenda := rest }) ∨
    (∃ rest, s.agenda = .reset :: rest ∧ t = State.resetBlock { s with agenda := rest }) ∨
    (∃ src ag as n, t = { s with rnd := src, agenda := ag, answers := as, seen := n }) := by
  cases hs : s.agenda with
  | nil =>
    have hturn : EngineTurn s [] := .inl ⟨hs, rfl⟩
    exact .inl ⟨[], hturn, step_of_engineTurn hturn ▸ h⟩
  | cons e rest =>
    rw [step_of_cons hs] at h
    cases e with
    | engine => exact .inl ⟨rest, .inr hs, h⟩
    | host tr => exact .inr <| .inl ⟨tr, rest, rfl, (Host.Outcome.next.inj h).symm⟩
    | reset => exact .inr <| .inr <| .inl ⟨rest, rfl, (Host.Outcome.next.inj h).symm⟩
    | source src =>
      obtain rfl := Host.Outcome.next.inj h
      exact .inr <| .inr <| .inr ⟨src, rest, s.answers, s.seen, rfl⟩
    | poll =>
      obtain rfl := Host.Outcome.next.inj h
      obtain ⟨ag, as, n, hp⟩ := pollStep_surroundings { s with agenda := rest }
      exact .inr <| .inr <| .inr ⟨s.rnd, ag, as, n, hp⟩
    | skip n =>
      obtain rfl := Host.Outcome.next.inj h
      exact .inr <| .inr <| .inr ⟨s.rnd, rest.drop n, s.answers, s.seen, rfl⟩
    | skipUnless bit want n =>
      obtain rfl := Host.Outcome.next.inj h
      refine .inr <| .inr <| .inr ?_
      split
      · exact ⟨s.rnd, rest, s.answers, s.seen, rfl⟩
      · exact ⟨s.rnd, rest.drop n, s.answers, s.seen, rfl⟩

/-! ## The host's transactions -/

@[simp] theorem target_cfg (nl : Nat) : target nl 0x0000 = some .cfg := rfl
@[simp] theorem target_ctrl (nl : Nat) : target nl 0x0004 = some .ctrl := rfl
@[simp] theorem target_status (nl : Nat) : target nl 0x0008 = some .status := rfl
@[simp] theorem target_errcode (nl : Nat) : target nl 0x000C = some .errcode := rfl
@[simp] theorem target_cmd (nl : Nat) : target nl 0x0010 = some .cmd := rfl

@[simp] theorem windowRead_cfg (s : State) : s.windowRead 0x0000 = some s.cfgWord := rfl
@[simp] theorem windowRead_ctrl (s : State) : s.windowRead 0x0004 = some s.ctrlWord := rfl
@[simp] theorem windowRead_status (s : State) : s.windowRead 0x0008 = some s.statusWord := rfl
@[simp] theorem windowRead_errcode (s : State) : s.windowRead 0x000C = some s.errcodeWord := rfl
@[simp] theorem windowRead_cmd (s : State) : s.windowRead 0x0010 = some s.cmd := rfl

/-- Every mapped offset lies in the window. -/
theorem inWindow_of_target {nl off : Nat} {tgt : Target} (h : target nl off = some tgt) : inWindow off = true := by
  have hw : Config.windowBytes = 0x3000 := rfl
  refine decide_eq_true (not_le.mp fun hge => ?_)
  have hnone : target nl off = none := by
    unfold target
    rw [if_neg (by omega), if_neg (by omega), if_neg (by omega), if_neg (by omega), if_neg (by omega),
      if_neg (by omega)]
  simp [hnone] at h

/-- A supported write acts on its target and is answered `Ok` (R50). -/
theorem transact_write {s : State} {off : Nat} {tgt : Target} (h : target s.nlimbs off = some tgt) (v : Word) :
    s.transact (.write off 4 v) = { s.writeTarget v tgt with answers := .ok :: s.answers } := by
  simp [State.transact, State.memWrite, State.writeAnswer, supported, inWindow_of_target h, h]

/-- Everything a host transaction can do: leave the block alone, or write to one target of the window. -/
theorem transact_cases (tr : Transaction) (s : State) :
    (∃ as n, s.transact tr = { s with answers := as, seen := n }) ∨
    (∃ off v tgt, tr = .write off 4 v ∧ target s.nlimbs off = some tgt ∧
      s.transact tr = { s.writeTarget v tgt with answers := .ok :: s.answers }) := by
  cases tr with
  | read off size => exact .inl ⟨_, _, rfl⟩
  | write off size v =>
    cases ht : supported s.nlimbs off size with
    | none =>
      exact .inl ⟨(s.writeAnswer off size).toList ++ s.answers, s.seen, by
        simp only [State.transact, State.memWrite, ht]⟩
    | some tgt =>
      unfold supported at ht
      split at ht
      · rename_i hsize
        subst hsize
        exact .inr ⟨off, v, tgt, rfl, ht, transact_write ht v⟩
      · cases ht

/-- The step that is the host's write to a mapped offset. -/
theorem step_of_write {s : State} {off : Nat} {v : Word} {tgt : Target} {rest : List Event}
    (h : s.agenda = .host (.write off 4 v) :: rest) (ht : target s.nlimbs off = some tgt) :
    step s = .next { State.writeTarget v { s with agenda := rest } tgt with answers := .ok :: s.answers } := by
  rw [step_of_host h, transact_write (s := { s with agenda := rest }) ht]

/-- `CMD` written while idle issues the word (R29, R31). -/
theorem writeTarget_cmd_idle {s : State} (h : s.busy = false) (v : Word) : s.writeTarget v .cmd = s.issue v := by
  simp [State.writeTarget, h]

/-- A limb written while idle is replaced (R63). -/
theorem writeTarget_limb_idle {s : State} (h : s.busy = false) (v : Word) (i j : Nat) :
    s.writeTarget v (.limb i j) = s.writeLimb i j v := by
  simp [State.writeTarget, h]

/-- `CMD` or a limb written while a command is in flight is a dropped write (R64). -/
theorem writeTarget_busy {s : State} (h : s.busy = true) (v : Word) :
    s.writeTarget v .cmd = s.dropWrite ∧ ∀ i j, s.writeTarget v (.limb i j) = s.dropWrite := by
  simp [State.writeTarget, h]

/-- What no host transaction writes: the width, the three result flags, the source and the agenda. -/
structure HostFrame (s t : State) : Prop where
  nlimbs : t.nlimbs = s.nlimbs
  eq : t.eq = s.eq
  lt : t.lt = s.lt
  prime : t.prime = s.prime
  rnd : t.rnd = s.rnd
  agenda : t.agenda = s.agenda

theorem writeTarget_frame (s : State) (v : Word) (tgt : Target) : HostFrame s (s.writeTarget v tgt) := by
  cases hb : s.busy <;> cases tgt <;> constructor <;> simp [State.writeTarget, hb]

theorem transact_frame (tr : Transaction) (s : State) : HostFrame s (s.transact tr) := by
  obtain ⟨as, n, h⟩ | ⟨off, v, tgt, -, -, h⟩ := transact_cases tr s
  · rw [h]
    exact ⟨rfl, rfl, rfl, rfl, rfl, rfl⟩
  · rw [h]
    obtain ⟨h1, h2, h3, h4, h5, h6⟩ := writeTarget_frame s v tgt
    exact ⟨h1, h2, h3, h4, h5, h6⟩

end Sys2Proof.Machine
end

section
/-! SUPPORT. What a command's step leaves alone, and how an offset of the window reads when its register is kept. -/

namespace Sys2Proof.Machine

/-! ## The commands that write flags -/

/-- What `MR_WORD` can do to the state, its arithmetic left out: go on with some progress, or commit a verdict. -/
theorem mrWord_goes_on_or_commits (rounds : Nat) (c : Ctx) (p : MrProgress) (w : Word) (s : State) :
    (∃ q, mrWord rounds c p w s = { s with ctx := some { c with mr := some q } }) ∨
    (∃ b, mrWord rounds c p w s = commitOk (·.setPrime b) s) := by
  rcases mrWord_cases rounds c p w s with ⟨-, h⟩ | ⟨-, -, h⟩ | ⟨-, -, -, h⟩ | ⟨-, -, -, -, h⟩ | ⟨-, -, -, -, h⟩
  · exact .inl ⟨_, h⟩
  · exact .inl ⟨_, h⟩
  · exact .inr ⟨_, h⟩
  · exact .inr ⟨_, h⟩
  · exact .inl ⟨_, h⟩

/-- What a step of `MRTEST` can do to the state, its arithmetic left out. -/
theorem exec_mrtest_cases {s t : State} {ra imm : Nat} (h : exec (.mrtest ra imm) s = .next t) :
    (∃ k, t = raise k s) ∨ (∃ b src, t = commitOk (·.setPrime b) { s with rnd := src }) ∨
    (∃ c src, t = { s with ctx := some c, rnd := src }) := by
  obtain ⟨c, hc, ⟨k, rfl, -⟩ | ⟨rd, v, hm, -, -, -⟩ | ⟨_, _, hi, -⟩ | ⟨_, _, b, -, -, rfl⟩ |
    ⟨_, _, -, -, -, -, -, rfl⟩ | ⟨_, _, p, -, -, -, rfl⟩ | ⟨_, imm', p, w, src, -, -, -, rfl⟩⟩ := exec_cases h
  · exact .inl ⟨k, rfl⟩
  · exact absurd rfl (hm ra imm)
  · cases hi
  · exact .inr <| .inl ⟨b, s.rnd, rfl⟩
  · exact .inr <| .inr ⟨_, s.rnd, rfl⟩
  · exact .inr <| .inr ⟨c, t.rnd, by rw [← hc]⟩
  · obtain ⟨q, h⟩ | ⟨b, h⟩ := mrWord_goes_on_or_commits imm' c p w { s with rnd := src }
    · exact .inr <| .inr ⟨_, src, h⟩
    · exact .inr <| .inl ⟨b, src, h⟩

theorem exec_cmp_next {s t : State} {ra rb : Nat} (h : exec (.cmp ra rb) s = .next t) :
    ∃ c, s.ctx = some c ∧ t = commitOk (·.setCompare c.va c.vb) s :=
  onCommand_next.mp (show execCmp s = .next t from h)

/-! ## The commands that write a register -/

/-- The register that a command writes and its outcome, an error or the value, as a function of the context alone
(R31, R38); `MRTEST` and `CMP` write no register. -/
def registerCommand : Instr → Option (Nat × (Ctx → Except ErrKind Nat))
  | .modinv rd _ _ => some (rd, fun c =>
      if c.vm = 0 then .error .invalidArgument else if (egcd c.va c.vm).1 ≠ 1 then .error .notInvertible
      else .ok (intMod (egcd c.va c.vm).2 c.vm))
  | .gcd rd _ _ => some (rd, fun c =>
      if c.va = 0 ∨ c.vb = 0 then .error .invalidArgument else .ok (gcdRef c.va c.vb))
  | .modexp rd _ _ _ => some (rd, fun c => if c.va ≥ c.vm then .error .invalidBlock else .ok (modpow c.va c.vb c.vm))
  | .modmul rd _ _ _ => some (rd, fun c => if c.vm = 0 then .error .invalidArgument else .ok (c.va * c.vb % c.vm))
  | .modred rd _ _ => some (rd, fun c => if c.vm = 0 then .error .invalidArgument else .ok (c.va % c.vm))
  | .mrtest _ _ | .cmp _ _ => none

/-- The completion of a register command: its error, or its value written (R32, R153). -/
def complete (rd : Nat) : Except ErrKind Nat → State → State
  | .error k => raise k
  | .ok v => commitOk (·.setX rd v)

/-- A command that writes a register completes in one step with the outcome its context determines. -/
theorem exec_register {i : Instr} {rd : Nat} {r : Ctx → Except ErrKind Nat} (h : registerCommand i = some (rd, r))
    (s : State) : exec i s = onCommand s fun c => complete rd (r c) s := by
  cases i with
  | mrtest | cmp => cases h
  | modinv | gcd | modexp | modmul | modred =>
    cases h
    refine congrArg (onCommand s) (funext fun c => ?_)
    dsimp only
    split_ifs <;> rfl

theorem exec_register_next {s t : State} {i : Instr} {rd : Nat} {r : Ctx → Except ErrKind Nat}
    (h : registerCommand i = some (rd, r)) (ht : exec i s = .next t) :
    ∃ c, s.ctx = some c ∧ t = complete rd (r c) s :=
  onCommand_next.mp (exec_register h s ▸ ht)

/-- The completion of a register command writes no other register, no result flag and no entropy word (R38). -/
theorem complete_writes_destination {s t : State} {rd : Nat} {r : Except ErrKind Nat} (h : t = complete rd r s) :
    (∀ j, j ≠ rd → t.readX j = s.readX j) ∧ t.eq = s.eq ∧ t.lt = s.lt ∧ t.prime = s.prime ∧ t.rnd = s.rnd := by
  subst h
  cases r with
  | error k => exact ⟨fun _ _ => rfl, rfl, rfl, rfl, rfl⟩
  | ok v => exact ⟨fun _ hj => readX_setX_ne hj v s, rfl, rfl, rfl, rfl⟩

/-- A command writes a register, or it is `MRTEST` or `CMP`. -/
theorem instr_cases (i : Instr) : (∃ rd r, registerCommand i = some (rd, r)) ∨ (∃ ra imm, i = .mrtest ra imm) ∨
    (∃ ra rb, i = .cmp ra rb) := by
  cases i with
  | mrtest ra imm => exact .inr <| .inl ⟨ra, imm, rfl⟩
  | cmp ra rb => exact .inr <| .inr ⟨ra, rb, rfl⟩
  | modinv | gcd | modexp | modmul | modred => exact .inl ⟨_, _, rfl⟩

/-! ## Frames of the engine -/

/-- What no step of the engine writes: the width, `IE`, `HOSTERR`, `CMD` and the fields of the surroundings but the
source. -/
structure EngineFrame (s t : State) : Prop where
  nlimbs : t.nlimbs = s.nlimbs
  ie : t.ie = s.ie
  hosterr : t.hosterr = s.hosterr
  cmd : t.cmd = s.cmd
  agenda : t.agenda = s.agenda
  answers : t.answers = s.answers
  seen : t.seen = s.seen

theorem complete_frame (rd : Nat) (r : Except ErrKind Nat) (s : State) : EngineFrame s (complete rd r s) := by
  cases r <;> exact ⟨rfl, rfl, rfl, rfl, rfl, rfl, rfl⟩

/-- The frame of every command (R38, R32, R153). -/
theorem exec_frame {s t : State} {i : Instr} (h : exec i s = .next t) : EngineFrame s t := by
  rcases instr_cases i with ⟨rd, r, hr⟩ | ⟨ra, imm, rfl⟩ | ⟨ra, rb, rfl⟩
  · obtain ⟨c, -, rfl⟩ := exec_register_next hr h
    exact complete_frame rd (r c) s
  · rcases exec_mrtest_cases h with ⟨k, rfl⟩ | ⟨b, src, rfl⟩ | ⟨c, src, rfl⟩ <;>
      exact ⟨rfl, rfl, rfl, rfl, rfl, rfl, rfl⟩
  · obtain ⟨c, -, rfl⟩ := exec_cmp_next h
    exact ⟨rfl, rfl, rfl, rfl, rfl, rfl, rfl⟩

/-- The frame of the engine's step, idle and on an illegal word too. -/
theorem engineStep_frame {s t : State} (h : engineStep s = .next t) : EngineFrame s t := by
  rcases engineStep_cases s with ⟨-, hs⟩ | ⟨c, why, -, -, hs⟩ | ⟨c, i, -, -, hs⟩ <;> rw [hs] at h
  · obtain rfl := Host.Outcome.next.inj h
    exact ⟨rfl, rfl, rfl, rfl, rfl, rfl, rfl⟩
  · obtain rfl := Host.Outcome.next.inj h
    exact ⟨rfl, rfl, rfl, rfl, rfl, rfl, rfl⟩
  · exact exec_frame h

/-- No step of any agent changes the width (R5, R25). -/
theorem step_nlimbs {s t : State} (h : step s = .next t) : t.nlimbs = s.nlimbs := by
  rcases step_cases h with ⟨rest, -, h⟩ | ⟨tr, rest, -, rfl⟩ | ⟨rest, -, rfl⟩ | ⟨src, ag, as, n, rfl⟩
  · exact (engineStep_frame h).nlimbs
  · exact (transact_frame tr _).nlimbs
  · rfl
  · rfl

/-- `MRTEST` and `CMP` write no register (R97, R137). -/
theorem exec_x_of_flag_command {s t : State} {i : Instr} (hi : registerCommand i = none) (h : exec i s = .next t) :
    t.x = s.x := by
  rcases instr_cases i with ⟨rd, r, hr⟩ | ⟨ra, imm, rfl⟩ | ⟨ra, rb, rfl⟩
  · simp [hi] at hr
  · rcases exec_mrtest_cases h with ⟨k, rfl⟩ | ⟨b, src, rfl⟩ | ⟨c, src, rfl⟩ <;> rfl
  · obtain ⟨c, -, rfl⟩ := exec_cmp_next h
    rfl

/-! ## `STATUS` and the window where only some registers changed -/

/-- The bits of `STATUS` above `HOSTERR` are 0 (R27). -/
theorem statusWord_bit_high (s : State) {k : Nat} (hk : 8 ≤ k) : s.statusWord.getLsbD k = false := by
  have hlow : k ≠ 0 ∧ k ≠ 1 ∧ k ≠ 2 ∧ k ≠ 3 ∧ k ≠ 4 ∧ k ≠ 5 ∧ k ≠ 6 ∧ k ≠ 7 := by omega
  simp only [statusWord_bit, hlow, if_false]

/-- The bits of `STATUS` from `EQ` on show the three result flags and `HOSTERR` (R27). -/
theorem statusWord_bit_congr {s t : State} {k : Nat} (heq : t.eq = s.eq) (hlt : t.lt = s.lt)
    (hprime : t.prime = s.prime) (hhost : t.hosterr = s.hosterr) (hk : 4 ≤ k) :
    t.statusWord.getLsbD k = s.statusWord.getLsbD k := by
  have hlow : k ≠ 0 ∧ k ≠ 1 ∧ k ≠ 2 ∧ k ≠ 3 := by omega
  simp only [statusWord_bit, hlow, if_false, heq, hlt, hprime, hhost]

/-- An offset other than `STATUS` and `ERRCODE` reads as before where the engine's frame and the limb's register are
kept. -/
theorem windowRead_of_frame {s t : State} {off : Nat} (h : EngineFrame s t) (hstatus : off ≠ 0x0008)
    (herr : off ≠ 0x000C) (hlimb : ∀ i j, off = 0x1000 + 0x400 * i + 4 * j → j < s.nlimbs → t.readX i = s.readX i) :
    t.windowRead off = s.windowRead off := by
  unfold State.windowRead
  rw [h.nlimbs]
  cases htgt : target s.nlimbs off with
  | none => rw [Option.map_none, Option.map_none]
  | some tgt =>
    rw [Option.map_some, Option.map_some, Option.some.injEq]
    rcases target_register htgt with ⟨-, rfl⟩ | ⟨-, rfl⟩ | ⟨ho, -⟩ | ⟨ho, -⟩ | ⟨-, rfl⟩ | ⟨i, j, rfl, ho, -, hj⟩
    · simp only [State.readTarget, State.cfgWord, h.nlimbs]
    · simp only [State.readTarget, State.ctrlWord, h.ie]
    · exact absurd ho hstatus
    · exact absurd ho herr
    · exact h.cmd
    · simp only [State.readTarget, State.readLimb, hlimb i j ho hj]

end Sys2Proof.Machine
end

section
/-! SUPPORT and settled statements. The invariant of every step (R21, R30, R31, R64, R137, R139, R150):
one lemma per operation, one per agent. -/

namespace Sys2Proof.Machine

/-! ## The width of a register written through a limb -/

/-- Replacing a limb keeps the limbs below it and above it (R63). -/
theorem replaceLimb_eq (a j : Nat) (v : Word) : replaceLimb a j v =
    a % 2 ^ (32 * j) + 2 ^ (32 * j) * v.toNat + 2 ^ (32 * (j + 1)) * (a / 2 ^ (32 * (j + 1))) := by
  have hpow : 2 ^ (32 * (j + 1)) = 2 ^ (32 * j) * 2 ^ 32 := by rw [← pow_add, Nat.mul_succ]
  have hlow := Nat.mod_add_div a (2 ^ (32 * j))
  have hhigh := Nat.mod_add_div (a / 2 ^ (32 * j)) (2 ^ 32)
  unfold replaceLimb limb
  rw [hpow, ← Nat.div_div_eq_div_mul]
  generalize 2 ^ (32 * j) = p at *
  generalize a / p / 2 ^ 32 = high at *
  generalize a / p % 2 ^ 32 = l at *
  have ha : a = a % p + p * 2 ^ 32 * high + l * p := by
    calc a = a % p + p * (l + 2 ^ 32 * high) := by rw [hhigh, hlow]
      _ = _ := by ring
  have hv : v.toNat * p = p * v.toNat := Nat.mul_comm _ _
  omega

/-- Replacing a limb of a register keeps the register within its width (R21, R63). -/
theorem replaceLimb_lt {a j n : Nat} (v : Word) (hj : j < n) (ha : a < 2 ^ (32 * n)) :
    replaceLimb a j v < 2 ^ (32 * n) := by
  have hn : 2 ^ (32 * n) = 2 ^ (32 * (j + 1)) * 2 ^ (32 * (n - (j + 1))) := by
    rw [← pow_add, ← Nat.mul_add]
    congr 2
    omega
  have hpow : 2 ^ (32 * (j + 1)) = 2 ^ (32 * j) * 2 ^ 32 := by rw [← pow_add, Nat.mul_succ]
  have hhigh : a / 2 ^ (32 * (j + 1)) < 2 ^ (32 * (n - (j + 1))) := by
    rw [hn] at ha
    exact Nat.div_lt_of_lt_mul ha
  have hlow : a % 2 ^ (32 * j) < 2 ^ (32 * j) := Nat.mod_lt _ (by positivity)
  have hlimb : 2 ^ (32 * j) * (v.toNat + 1) ≤ 2 ^ (32 * j) * 2 ^ 32 := Nat.mul_le_mul_left _ v.isLt
  have htop : 2 ^ (32 * (j + 1)) * (a / 2 ^ (32 * (j + 1)) + 1) ≤ 2 ^ (32 * n) := by
    rw [hn]
    exact Nat.mul_le_mul_left _ hhigh
  rw [replaceLimb_eq]
  rw [Nat.mul_succ] at hlimb htop
  omega

/-! ## The surroundings -/

/-- Only the block's own state matters to the invariant. -/
theorem invariant_withSurroundings {s : State} (h : Invariant s) (src : Source) (ag : List Event)
    (as : List BusAnswer) (n : Word) : Invariant { s with rnd := src, agenda := ag, answers := as, seen := n } :=
  invariant_surroundings h rfl rfl rfl rfl rfl rfl rfl rfl id

theorem invariant_withAgenda {s : State} (h : Invariant s) (rest : List Event) : Invariant { s with agenda := rest } :=
  invariant_withSurroundings h s.rnd rest s.answers s.seen

/-- Taking a word from the source does not matter to the invariant. -/
theorem invariant_withRnd {s : State} (h : Invariant s) (src : Source) : Invariant { s with rnd := src } :=
  invariant_withSurroundings h src s.agenda s.answers s.seen

/-! ## The operations that end a command -/

/-- The invariant of a state with no command in flight. -/
theorem invariant_of_no_command {s : State} (hl : Config.LegalLimbs s.nlimbs)
    (hx : ∀ i < 8, s.readX i < 2 ^ Config.width s.nlimbs) (hb : s.busy = false) (hc : s.ctx = none)
    (hk : s.code = 0#4 ∨ s.code = 1#4 ∨ s.code = 2#4 ∨ s.code = 6#4 ∨ s.code = 7#4)
    (hf : ¬ (s.eq = true ∧ s.lt = true)) : Invariant s :=
  ⟨hl, hx, by simp [hb, hc], by simp [hb], hk, hf, by simp [hc]⟩

theorem readX_setX_lt {s : State} {v b : Nat} (rd : Nat) (hx : ∀ i < 8, s.readX i < b) (hv : v < b) :
    ∀ i < 8, (s.setX rd v).readX i < b := by
  intro i hi
  by_cases h : i = rd
  · rw [h, readX_setX_self (h ▸ hi)]
    exact hv
  · exact readX_setX_ne h v s ▸ hx i hi

theorem invariant_raise {s : State} {k : ErrKind} (h : Invariant s)
    (hk : k = .invalidArgument ∨ k = .notInvertible ∨ k = .invalidBlock ∨ k = .illegalCommand) :
    Invariant (raise k s) := by
  refine invariant_of_no_command h.limbs h.regs rfl rfl ?_ h.flags_exclusive
  rcases hk with rfl | rfl | rfl | rfl <;> simp [ErrKind.code]

theorem invariant_commit_setX {s : State} {v : Nat} (h : Invariant s) (rd : Nat)
    (hv : v < 2 ^ Config.width s.nlimbs) : Invariant (commitOk (·.setX rd v) s) :=
  invariant_of_no_command h.limbs (readX_setX_lt rd h.regs hv) rfl rfl h.code_raised h.flags_exclusive

theorem invariant_commit_setCompare {s : State} (h : Invariant s) (a b : Nat) :
    Invariant (commitOk (·.setCompare a b) s) := by
  refine invariant_of_no_command h.limbs h.regs rfl rfl h.code_raised ?_
  rintro ⟨heq, hlt⟩
  exact absurd (of_decide_eq_true hlt) (of_decide_eq_true heq).not_lt

theorem invariant_commit_setPrime {s : State} (h : Invariant s) (b : Bool) :
    Invariant (commitOk (·.setPrime b) s) :=
  invariant_of_no_command h.limbs h.regs rfl rfl h.code_raised h.flags_exclusive

/-! ## The engine -/

/-- The latched operands fit the width, as the registers do (R21, R31). -/
theorem latched_lt {s : State} {c : Ctx} (h : Invariant s) (hc : s.ctx = some c) :
    c.va < 2 ^ Config.width s.nlimbs ∧ c.vm < 2 ^ Config.width s.nlimbs := by
  have hinv := h.ctx_inv c hc
  obtain ⟨-, hra, -, hrm, -⟩ := reg_fields_lt c.word
  exact ⟨hinv.va_latched ▸ h.regs _ hra, hinv.vm_latched ▸ h.regs _ hrm⟩

/-- A command in flight that waits for words has an odd operand of at least 5 (R30, R31). -/
theorem five_le_of_progress {s : State} {c : Ctx} {p : MrProgress} (h : Invariant s) (hc : s.ctx = some c)
    (hp : c.mr = some p) : 5 ≤ c.va := by
  have hneeds : needsWitness c.word c.va = true := by rw [← (h.ctx_inv c hc).draws_iff, hp, Option.isSome_some]
  obtain ⟨-, -, -, -, -, h5⟩ := (needsWitness_iff c.word c.va).mp hneeds
  exact h5

/-- Going on with a progress that is within its bounds (R30). -/
theorem invariant_progress {s : State} {c : Ctx} {p q : MrProgress} (h : Invariant s) (hc : s.ctx = some c)
    (hp : c.mr = some p) (hi : q.i < immField c.word) (hbuf : q.buf.length < candidateWords c.va) :
    Invariant { s with ctx := some { c with mr := some q } } := by
  have hbusy : s.busy = true := by rw [h.busy_iff, hc, Option.isSome_some]
  obtain ⟨hcmd, hva, hvb, hvm, hdraws, -⟩ := h.ctx_inv c hc
  refine ⟨h.limbs, h.regs, hbusy, h.clear_in_flight, h.code_raised, h.flags_exclusive, fun c' hc' => ?_⟩
  obtain rfl := Option.some.inj hc'
  refine ⟨hcmd, hva, hvb, hvm, ?_, fun q' hq' => ?_⟩
  · rw [← hdraws, hp, Option.isSome_some, Option.isSome_some]
  · obtain rfl := Option.some.inj hq'
    exact ⟨hi, hbuf⟩

/-- `MR_WORD` keeps the progress within its bounds: a candidate short of a word stays short of complete, and a round is
counted only when it is not the last (R96). -/
theorem invariant_mrWord {s : State} {c : Ctx} {p : MrProgress} (h : Invariant s) (hc : s.ctx = some c)
    (hp : c.mr = some p) (w : Word) : Invariant (mrWord (immField c.word) c p w s) := by
  have hpos : 0 < candidateWords c.va := candidateWords_pos (five_le_of_progress h hc hp)
  obtain ⟨hi, -⟩ := (h.ctx_inv c hc).progress p hp
  rcases mrWord_cases (immField c.word) c p w s with ⟨hlen, hs⟩ | ⟨-, -, hs⟩ | ⟨-, -, -, hs⟩ | ⟨-, -, -, -, hs⟩ |
    ⟨-, -, -, hne, hs⟩ <;> rw [hs]
  · exact invariant_progress h hc hp hi hlen
  · exact invariant_progress h hc hp hi hpos
  · exact invariant_commit_setPrime h false
  · exact invariant_commit_setPrime h true
  · exact invariant_progress h hc hp (Nat.lt_of_le_of_ne hi hne) hpos

/-- Under the invariant an `MRTEST` that has rounds to run on an odd operand of at least 5 has them begun at issue. -/
theorem mr_ne_none_of_mrtest {s : State} {c : Ctx} {ra imm : Nat} (h : Invariant s) (hc : s.ctx = some c)
    (hd : decode c.word = .command (.mrtest ra imm)) (himm : imm ≠ 0) (hodd : c.va % 2 = 1) (h5 : 5 ≤ c.va) :
    c.mr ≠ none := by
  have hneeds := (needsWitness_iff c.word c.va).mpr ⟨ra, imm, hd, himm, hodd, h5⟩
  exact Option.isSome_iff_ne_none.mp ((h.ctx_inv c hc).draws_iff ▸ hneeds)

/-- The step of the command in flight keeps the invariant. -/
theorem invariant_exec {s t : State} {c : Ctx} {i : Instr} (h : Invariant s) (hc : s.ctx = some c)
    (hd : decode c.word = .command i) (ht : exec i s = .next t) : Invariant t := by
  obtain ⟨c', hc', hcases⟩ := exec_cases ht
  obtain rfl : c = c' := Option.some.inj (hc.symm.trans hc')
  rcases hcases with ⟨k, rfl, hk⟩ | ⟨rd, v, -, -, rfl, hv⟩ | ⟨ra, rb, -, rfl⟩ | ⟨ra, imm, b, -, -, rfl⟩ |
    ⟨ra, imm, rfl, hmr, himm, hodd, h5, -⟩ | ⟨ra, imm, p, -, -, -, rfl⟩ | ⟨ra, imm, p, w, src, rfl, hmr, -, rfl⟩
  · exact invariant_raise h (hk.imp_right (·.imp_right .inl))
  · obtain ⟨hva, hvm⟩ := latched_lt h hc
    exact invariant_commit_setX h rd (hv.elim (·.trans_lt hva) (·.trans hvm))
  · exact invariant_commit_setCompare h c.va c.vb
  · exact invariant_commit_setPrime h b
  · exact absurd hmr (mr_ne_none_of_mrtest h hc hd himm hodd h5)
  · exact h
  · rw [← (mrtest_fields hd).2]
    exact invariant_mrWord (invariant_withRnd h src) hc hmr w

theorem invariant_engineStep {s t : State} (h : Invariant s) (ht : engineStep s = .next t) : Invariant t := by
  rcases engineStep_cases s with ⟨-, hs⟩ | ⟨c, why, -, -, hs⟩ | ⟨c, i, hc, hd, hs⟩ <;> rw [hs] at ht
  · exact Host.Outcome.next.inj ht ▸ h
  · obtain rfl := Host.Outcome.next.inj ht
    exact invariant_raise h (.inr <| .inr <| .inr rfl)
  · exact invariant_exec h hc hd ht

/-! ## The host and reset -/

/-- While idle the engine has no context (R30). -/
theorem ctx_none_of_idle {s : State} (h : Invariant s) (hb : s.busy = false) : s.ctx = none := by
  rw [← Option.not_isSome_iff_eq_none, ← h.busy_iff, hb]
  exact Bool.false_ne_true

/-- With no command in flight, replacing a limb keeps the invariant (R63). -/
theorem invariant_writeLimb {s : State} {j : Nat} (h : Invariant s) (hb : s.busy = false) (i : Nat) (v : Word)
    (hj : j < s.nlimbs) (hi : i < 8) : Invariant (s.writeLimb i j v) :=
  invariant_of_no_command h.limbs (readX_setX_lt i h.regs (replaceLimb_lt v hj (h.regs i hi))) hb
    (show s.ctx = none from ctx_none_of_idle h hb) h.code_raised h.flags_exclusive

theorem invariant_dropWrite {s : State} (h : Invariant s) : Invariant s.dropWrite :=
  invariant_surroundings h rfl rfl rfl rfl rfl rfl rfl rfl id

/-- A write to a mapped offset keeps the invariant: what it could break is written while idle only (R64). -/
theorem invariant_writeTarget {s : State} {off : Nat} {tgt : Target} (h : Invariant s)
    (htgt : target s.nlimbs off = some tgt) (v : Word) : Invariant (s.writeTarget v tgt) := by
  cases tgt with
  | cfg | errcode => exact h
  | ctrl => exact invariant_surroundings h rfl rfl rfl rfl rfl rfl rfl rfl id
  | status => exact invariant_surroundings h rfl rfl rfl rfl rfl rfl rfl rfl fun hd => by simp [State.writeTarget, hd]
  | cmd =>
    cases hb : s.busy with
    | true => exact (writeTarget_busy hb v).1 ▸ invariant_dropWrite h
    | false => exact writeTarget_cmd_idle hb v ▸ invariant_issue h v
  | limb i j =>
    cases hb : s.busy with
    | true => exact (writeTarget_busy hb v).2 i j ▸ invariant_dropWrite h
    | false =>
      obtain ⟨-, hi, hj⟩ := offset_of_target_limb htgt
      exact writeTarget_limb_idle hb v i j ▸ invariant_writeLimb h hb i v hj hi

theorem invariant_transact {s : State} (h : Invariant s) (tr : Transaction) : Invariant (s.transact tr) := by
  obtain ⟨as, n, hs⟩ | ⟨off, v, tgt, -, htgt, hs⟩ := transact_cases tr s <;> rw [hs]
  · exact invariant_withSurroundings h s.rnd s.agenda as n
  · have hwrite := invariant_writeTarget h htgt v
    exact invariant_withSurroundings hwrite (s.writeTarget v tgt).rnd (s.writeTarget v tgt).agenda _
      (s.writeTarget v tgt).seen

/-- Every operand register is 0 after reset (R37). -/
theorem readX_resetOf (nlimbs i : Nat) : (State.resetOf nlimbs).readX i = 0 := by
  have hx : (State.resetOf nlimbs).x = Vector.replicate 8 0 := rfl
  rw [State.readX, hx, Vector.getElem?_replicate]
  split <;> rfl

theorem invariant_resetOf {nlimbs : Nat} (h : Config.LegalLimbs nlimbs) : Invariant (State.resetOf nlimbs) :=
  invariant_idle h (fun i _ => by rw [readX_resetOf]; positivity) rfl rfl rfl (by simp [State.resetOf])

theorem invariant_resetBlock {s : State} (h : Invariant s) : Invariant s.resetBlock :=
  invariant_withSurroundings (invariant_resetOf h.limbs) s.rnd s.agenda s.answers s.seen

/-- Settles O36: each agent's step keeps the invariant. -/
theorem everyStepKeepsTheInvariant : Obligations.EveryStepKeepsTheInvariant := by
  intro s t h hstep
  rcases step_cases hstep with ⟨rest, -, ht⟩ | ⟨tr, rest, -, rfl⟩ | ⟨rest, -, rfl⟩ | ⟨src, ag, as, n, rfl⟩
  · exact invariant_engineStep (invariant_withAgenda h rest) ht
  · exact invariant_transact (invariant_withAgenda h rest) tr
  · exact invariant_resetBlock (invariant_withAgenda h rest)
  · exact invariant_withSurroundings h src ag as n

/-- Settles O35: reset leaves an idle block with every register and flag 0. -/
theorem invariantHoldsAtReset : Obligations.InvariantHoldsAtReset :=
  ⟨invariant_resetOf (by decide), fun _ h => invariant_resetOf h⟩

end Sys2Proof.Machine
end

section
/-! SUPPORT and settled statements. The control and status registers, the wires and reset (R25 to R33, R37). -/

namespace Sys2Proof.Machine

/-- At every admitted width `NLIMBS` fits its 16 bits of `CFG` (R5, R25). -/
theorem cfgWord_of_legal {s : State} (h : Config.LegalLimbs s.nlimbs) :
    s.cfgWord = BitVec.ofNat 32 (s.nlimbs + 8 * 2 ^ 16 + 1 * 2 ^ 24) := by
  have hlt : s.nlimbs < 2 ^ 16 := by
    have := h.2
    omega
  rw [State.cfgWord, Nat.mod_eq_of_lt hlt]
  rfl

theorem cfgWord_congr {s t : State} (h : t.nlimbs = s.nlimbs) : t.cfgWord = s.cfgWord := by
  rw [State.cfgWord, State.cfgWord, h]

theorem ctrlWord_eq (s : State) : s.ctrlWord = if s.ie then 1#32 else 0#32 := by
  unfold State.ctrlWord
  cases s.ie <;> decide

/-- `RNDWAIT` is that the command in flight has its rounds begun (R27, R30). -/
theorem rndwait_iff (s : State) : s.rndwait = true ↔ ∃ c p, s.ctx = some c ∧ c.mr = some p := by
  unfold State.rndwait
  cases s.ctx with
  | none => simp
  | some c => simp [Option.isSome_iff_exists]

/-- The write to `STATUS` clears exactly the two bits written with 1 (R27). -/
theorem clearStatus_eq_ite (v : Word) (s : State) : s.clearStatus v = { s with
    done := if v.getLsbD 1 then false else s.done, hosterr := if v.getLsbD 7 then false else s.hosterr } := by
  unfold State.clearStatus
  cases v.getLsbD 1 <;> cases v.getLsbD 7 <;> simp

/-- Settles O28, by the table of the bits of `STATUS`. -/
theorem statusShowsTheFlagsAndClearsTwo : Obligations.StatusShowsTheFlagsAndClearsTwo := by
  intro s v rest
  refine ⟨⟨s.statusWord, windowRead_status s, ?_⟩, fun h => ?_⟩
  · refine ⟨statusWord_bit s 0, statusWord_bit s 1, ?_, ?_, statusWord_bit s 4, statusWord_bit s 5, statusWord_bit s 6,
      statusWord_bit s 7, fun k hk => statusWord_bit_high s hk⟩
    · rw [statusWord_bit, decide_not]
      rfl
    · rw [statusWord_bit]
      exact rndwait_iff s
  · rw [step_of_write h (target_status _)]
    simp only [State.writeTarget, clearStatus_eq_ite]

/-- Settles O29: no step of any agent changes the width, all that `CFG` depends on. -/
theorem cfgIsConstant : Obligations.CfgIsConstant := by
  refine ⟨fun s h => ?_, fun s v rest h => step_of_write h (target_cfg _), fun s t h => ?_, fun s h => ?_⟩
  · rw [windowRead_cfg, cfgWord_of_legal h]
  · rw [windowRead_cfg, windowRead_cfg, cfgWord_congr (step_nlimbs h)]
  · rw [windowRead_cfg, cfgWord_of_legal (h ▸ by decide), h]
    rfl

/-- Settles O27: `CTRL` reads as `IE`, and its write is the window's write to that target. -/
theorem ctrlHoldsTheInterruptEnable : Obligations.CtrlHoldsTheInterruptEnable := by
  intro s v rest
  refine ⟨?_, fun h => step_of_write h (target_ctrl _), rfl⟩
  rw [windowRead_ctrl, ctrlWord_eq]

/-- Settles O30: both offsets are mapped, and a write to a read-only target is ignored. -/
theorem errcodeAndCmdRead : Obligations.ErrcodeAndCmdRead := by
  intro s v rest
  refine ⟨⟨?_, windowRead_cmd s⟩, fun h => step_of_write h (target_errcode _)⟩
  rw [windowRead_errcode, State.errcodeWord, BitVec.ofNat_toNat]

/-- Settles O32, by the bits of `CTRL` and `STATUS`. -/
theorem wiresFollowTheRegisters : Obligations.WiresFollowTheRegisters := by
  intro s
  refine ⟨s.ctrlWord, s.statusWord, windowRead_ctrl s, windowRead_status s, ?_, ?_⟩
  · have hie : s.ctrlWord.getLsbD 0 = s.ie := by
      rw [ctrlWord_eq]
      cases s.ie <;> rfl
    rw [hie, statusWord_bit]
    rfl
  · rw [statusWord_bit]
    rfl

theorem statusWord_resetOf (nlimbs : Nat) : (State.resetOf nlimbs).statusWord = 0#32 := by
  refine BitVec.eq_of_getLsbD_eq fun k _ => ?_
  rw [statusWord_bit, BitVec.getLsbD_zero]
  split_ifs <;> rfl

/-- Settles O34, one row of R37's table after another. -/
theorem stateAfterReset : Obligations.StateAfterReset :=
  ⟨fun nlimbs h => ⟨fun i _ => readX_resetOf nlimbs i, cfgWord_of_legal (s := State.resetOf nlimbs) h,
    rfl, statusWord_resetOf nlimbs, rfl, rfl, rfl, rfl, rfl⟩, rfl⟩

end Sys2Proof.Machine
end

section
/-! SUPPORT and settled statements. Issue, the engine's turn and the completion of a command (R31, R32, R57, R185). -/

namespace Sys2Proof.Machine

/-! ## Issue -/

/-- The context that issue latches, with the operand fields as slices of the word's value (R31, R71). -/
theorem latch_eq (s : State) (w : Word) : s.latch w = {
    word := w, va := s.readX (w.toNat / 2 ^ 8 % 8), vb := s.readX (w.toNat / 2 ^ 12 % 8),
    vm := s.readX (w.toNat / 2 ^ 16 % 8), mr := (s.latch w).mr } := by
  simp only [State.latch, raField, rbField, rmField, field_eq, Nat.reducePow]

/-- Issue begins the rounds exactly of a word that needs witnesses (R31). -/
theorem latch_mr (s : State) (w : Word) :
    (s.latch w).mr = if needsWitness w (s.readX (raField w)) then some { i := 0, buf := [] } else none := rfl

/-- What a word needs to need witnesses, in terms of the register it names (R31). -/
theorem needsWitness_readX_iff (s : State) (w : Word) : needsWitness w (s.readX (raField w)) = true ↔
    ∃ ra imm, decode w = .command (.mrtest ra imm) ∧ imm ≠ 0 ∧ s.readX ra % 2 = 1 ∧ 5 ≤ s.readX ra := by
  rw [needsWitness_iff]
  refine exists_congr fun ra => exists_congr fun imm => and_congr_right fun hd => ?_
  rw [(mrtest_fields hd).1]

/-- Settles O5: the write reaches `CMD` and issues the word, which latches the context. -/
theorem cmdWriteWhileIdleIssues : Obligations.CmdWriteWhileIdleIssues := by
  intro s w rest hb h
  refine ⟨(s.latch w).mr, ?_, fun hw => ?_, fun hw => ?_⟩
  · rw [step_of_write h (target_cmd _), writeTarget_cmd_idle (s := { s with agenda := rest }) hb, ← latch_eq]
    rfl
  · rw [latch_mr, if_pos ((needsWitness_readX_iff s w).mpr hw)]
  · rw [latch_mr, if_neg (mt (needsWitness_readX_iff s w).mp hw)]

/-! ## The engine's turn -/

/-- Settles O6: the engine's turn, with the agenda empty and with the engine's event first. -/
theorem stepRunsTheDecodedCommand : Obligations.StepRunsTheDecodedCommand := by
  intro s c i rest hc hd
  refine ⟨fun h => ?_, fun h => ?_⟩
  · rw [step_of_engineTurn (.inl ⟨h, rfl⟩), ← h]
    exact engineStep_of_command hc hd
  · rw [step_of_engineTurn (.inr h)]
    exact engineStep_of_command hc hd

/-- Settles O7: the word placed is issued with the engine's event next. -/
theorem placedWordRunsNext : Obligations.PlacedWordRunsNext := by
  intro s w i hd
  have hw : s.withFetchWord 32 w.toNat = s.withIssued w := by
    rw [State.withFetchWord, Nat.mod_eq_of_lt w.isLt, BitVec.ofNat_toNat, BitVec.setWidth_eq]
  rw [hw, step_of_engineTurn (rest := s.agenda) (.inr rfl)]
  exact engineStep_of_command (c := s.latch w) rfl hd

/-! ## Completion -/

/-- With a command in flight every meaning answers a next state (R162). -/
theorem exec_next {s : State} {c : Ctx} (hc : s.ctx = some c) (i : Instr) : ∃ t, exec i s = .next t := by
  rcases instr_cases i with ⟨rd, r, hr⟩ | ⟨ra, imm, rfl⟩ | ⟨ra, rb, rfl⟩
  · exact ⟨_, (exec_register hr s).trans (onCommand_some hc _)⟩
  · exact ⟨_, onCommand_some hc _⟩
  · exact ⟨_, onCommand_some hc _⟩

/-- Under the invariant a command in flight that draws no words is over after the engine's step, the words on offer
untouched (R32, R153). -/
theorem engineStep_completes {s : State} {c : Ctx} (h : Invariant s) (hc : s.ctx = some c) (hmr : c.mr = none) :
    ∃ t, engineStep s = .next t ∧ t.busy = false ∧ t.done = true ∧ t.ctx = none ∧ t.rnd = s.rnd := by
  rcases engineStep_cases s with ⟨hnone, -⟩ | ⟨c', why, -, -, hs⟩ | ⟨c', i, hc', hd, hs⟩
  · simp [hnone] at hc
  · exact ⟨_, hs, rfl, rfl, rfl, rfl⟩
  · obtain rfl : c = c' := Option.some.inj (hc.symm.trans hc')
    obtain ⟨t, ht⟩ := exec_next hc i
    refine ⟨t, hs.trans ht, ?_⟩
    obtain ⟨c', hc', hcases⟩ := exec_cases ht
    obtain rfl : c = c' := Option.some.inj (hc.symm.trans hc')
    rcases hcases with ⟨k, rfl, -⟩ | ⟨rd, v, -, -, rfl, -⟩ | ⟨ra, rb, -, rfl⟩ | ⟨ra, imm, b, -, -, rfl⟩ |
      ⟨ra, imm, rfl, -, himm, hodd, h5, -⟩ | ⟨ra, imm, p, -, hp, -⟩ | ⟨ra, imm, p, w, src, -, hp, -⟩
    · exact ⟨rfl, rfl, rfl, rfl⟩
    · exact ⟨rfl, rfl, rfl, rfl⟩
    · exact ⟨rfl, rfl, rfl, rfl⟩
    · exact ⟨rfl, rfl, rfl, rfl⟩
    · exact absurd hmr (mr_ne_none_of_mrtest h hc hd himm hodd h5)
    · simp [hmr] at hp
    · simp [hmr] at hp

/-- Settles O42: in either form of the engine's turn the step is the engine's, which completes the command. -/
theorem completeStepEndsTheCommand : Obligations.CompleteStepEndsTheCommand := by
  intro s c h hc hmr hagenda
  obtain ⟨rest, hturn⟩ : ∃ rest, EngineTurn s rest := by
    obtain hnil | ⟨rest, hcons⟩ := hagenda
    · exact ⟨[], .inl ⟨hnil, rfl⟩⟩
    · exact ⟨rest, .inr hcons⟩
  rw [step_of_engineTurn hturn]
  exact engineStep_completes (invariant_withAgenda h rest) hc hmr

end Sys2Proof.Machine
end

section
/-! SUPPORT and settled statements. What commands and the host leave alone, and what a result depends on
(R23, R31, R38, R64). -/

namespace Sys2Proof.Machine

/-! ## Frames -/

/-- Settles O17: the completion writes `x[rd]` alone, so an offset of another register reads as before. -/
theorem registerCommandsChangeOnlyTheirDestination : Obligations.RegisterCommandsChangeOnlyTheirDestination := by
  intro s t i rd a b m hi ht
  obtain ⟨r, hr⟩ : ∃ r, registerCommand i = some (rd, r) := by
    rcases hi with rfl | rfl | rfl | rfl | rfl <;> exact ⟨_, rfl⟩
  obtain ⟨c, -, hcomplete⟩ := exec_register_next hr ht
  obtain ⟨hx, heq, hlt, hprime, hrnd⟩ := complete_writes_destination hcomplete
  have hframe := exec_frame ht
  refine ⟨hx, ⟨hframe.ie, heq, hlt, hprime, hframe.hosterr, hframe.cmd, hframe.nlimbs⟩,
    ⟨hrnd, hframe.agenda, hframe.answers, hframe.seen⟩, fun k hk => ?_, fun off h8 hC hoff => ?_⟩
  · exact statusWord_bit_congr heq hlt hprime hframe.hosterr hk
  · refine windowRead_of_frame hframe h8 hC fun i j ho hj => hx i ?_
    rintro rfl
    exact hoff j hj ho

/-- Settles O18: no register is written, so every offset but `STATUS` and `ERRCODE` reads as before. -/
theorem flagCommandsChangeNoRegister : Obligations.FlagCommandsChangeNoRegister := by
  intro s t i ra rb imm hi ht
  have hframe := exec_frame ht
  have hx : t.x = s.x := by
    rcases hi with rfl | rfl <;> exact exec_x_of_flag_command rfl ht
  refine ⟨⟨hx, hframe.ie, hframe.hosterr, hframe.cmd, hframe.nlimbs, hframe.agenda, hframe.answers, hframe.seen⟩,
    ?_, ?_, fun k hk => ?_, fun off h8 hC => ?_⟩
  · rintro rfl
    obtain ⟨c, -, rfl⟩ := exec_cmp_next ht
    exact ⟨rfl, rfl, rfl⟩
  · rintro rfl
    rcases exec_mrtest_cases ht with ⟨k, rfl⟩ | ⟨b, src, rfl⟩ | ⟨c, src, rfl⟩ <;> exact ⟨rfl, rfl⟩
  · rw [statusWord_bit_high _ hk, statusWord_bit_high _ hk]
  · exact windowRead_of_frame hframe h8 hC fun i j _ _ => by rw [State.readX, State.readX, hx]

/-- Settles O40: each write that could touch the command in flight is dropped. -/
theorem hostCannotDisturbACommandInFlight : Obligations.HostCannotDisturbACommandInFlight := by
  intro s t tr rest hb hagenda ht
  rw [step_of_host hagenda] at ht
  obtain rfl := Host.Outcome.next.inj ht
  obtain ⟨as, n, hs⟩ | ⟨off, v, tgt, -, -, hs⟩ := transact_cases tr { s with agenda := rest } <;> rw [hs]
  · exact ⟨rfl, hb, rfl, rfl, rfl, rfl, rfl, rfl, rfl, rfl⟩
  · cases tgt with
    | cfg | ctrl | status | errcode => exact ⟨rfl, hb, rfl, rfl, rfl, rfl, rfl, rfl, rfl, rfl⟩
    | cmd =>
      rw [(writeTarget_busy (s := { s with agenda := rest }) hb v).1]
      exact ⟨rfl, hb, rfl, rfl, rfl, rfl, rfl, rfl, rfl, rfl⟩
    | limb i j =>
      rw [(writeTarget_busy (s := { s with agenda := rest }) hb v).2]
      exact ⟨rfl, hb, rfl, rfl, rfl, rfl, rfl, rfl, rfl, rfl⟩

/-! ## Who writes the flags -/

/-- The engine changes `EQ` and `LT` only by completing a `CMP`, which sets them (R23, R137). -/
theorem engineStep_compare {s t : State} (h : engineStep s = .next t) : (t.eq = s.eq ∧ t.lt = s.lt) ∨
    ∃ c ra rb, s.ctx = some c ∧ decode c.word = .command (.cmp ra rb) ∧
      t.eq = decide (c.va = c.vb) ∧ t.lt = decide (c.va < c.vb) ∧ t.ctx = none := by
  rcases engineStep_cases s with ⟨-, hs⟩ | ⟨c, why, -, -, hs⟩ | ⟨c, i, hc, hd, hs⟩ <;> rw [hs] at h
  · obtain rfl := Host.Outcome.next.inj h
    exact .inl ⟨rfl, rfl⟩
  · obtain rfl := Host.Outcome.next.inj h
    exact .inl ⟨rfl, rfl⟩
  · rcases instr_cases i with ⟨rd, r, hr⟩ | ⟨ra, imm, rfl⟩ | ⟨ra, rb, rfl⟩
    · obtain ⟨c', -, ht⟩ := exec_register_next hr h
      obtain ⟨-, heq, hlt, -⟩ := complete_writes_destination ht
      exact .inl ⟨heq, hlt⟩
    · rcases exec_mrtest_cases h with ⟨k, rfl⟩ | ⟨b, src, rfl⟩ | ⟨c', src, rfl⟩ <;> exact .inl ⟨rfl, rfl⟩
    · obtain ⟨c', hc', rfl⟩ := exec_cmp_next h
      obtain rfl : c = c' := Option.some.inj (hc.symm.trans hc')
      exact .inr ⟨c, ra, rb, hc, hd, rfl, rfl, rfl⟩

/-- The engine changes `PRIME` only by completing an `MRTEST` (R23, R97). -/
theorem engineStep_prime {s t : State} (h : engineStep s = .next t) : t.prime = s.prime ∨
    ∃ c ra imm, s.ctx = some c ∧ decode c.word = .command (.mrtest ra imm) ∧ t.ctx = none := by
  rcases engineStep_cases s with ⟨-, hs⟩ | ⟨c, why, -, -, hs⟩ | ⟨c, i, hc, hd, hs⟩ <;> rw [hs] at h
  · exact .inl (Host.Outcome.next.inj h ▸ rfl)
  · exact .inl (Host.Outcome.next.inj h ▸ rfl)
  · rcases instr_cases i with ⟨rd, r, hr⟩ | ⟨ra, imm, rfl⟩ | ⟨ra, rb, rfl⟩
    · obtain ⟨c', -, ht⟩ := exec_register_next hr h
      obtain ⟨-, -, -, hprime, -⟩ := complete_writes_destination ht
      exact .inl hprime
    · rcases exec_mrtest_cases h with ⟨k, rfl⟩ | ⟨b, src, rfl⟩ | ⟨c', src, rfl⟩
      · exact .inl rfl
      · exact .inr ⟨c, ra, imm, hc, hd, rfl⟩
      · exact .inl rfl
    · obtain ⟨c', -, rfl⟩ := exec_cmp_next h
      exact .inl rfl

/-- Settles O38: of the agents only the engine and reset write the three flags. -/
theorem flagsAreWrittenOnlyByTheirCommand : Obligations.FlagsAreWrittenOnlyByTheirCommand := by
  intro s t hstep
  rcases step_cases hstep with ⟨rest, -, ht⟩ | ⟨tr, rest, -, rfl⟩ | ⟨rest, hs, -⟩ | ⟨src, ag, as, n, rfl⟩
  · refine ⟨fun hne => .inr ?_, fun hne => .inr ?_⟩
    · obtain ⟨heq, hlt⟩ | hcmp := engineStep_compare ht
      · exact absurd hne (by simp [heq, hlt])
      · exact hcmp
    · exact (engineStep_prime ht).resolve_left hne
  · obtain ⟨-, heq, hlt, hprime, -, -⟩ := transact_frame tr { s with agenda := rest }
    exact ⟨fun hne => absurd hne (by simp [heq, hlt]), fun hne => absurd hprime hne⟩
  · exact ⟨fun _ => .inl ⟨rest, hs⟩, fun _ => .inl ⟨rest, hs⟩⟩
  · exact ⟨fun hne => absurd hne (by simp), fun hne => absurd rfl hne⟩

/-! ## What a result depends on -/

/-- Two outcomes of one command agree on the code, the context and the words left and, where both ended without
error, on `result`. -/
structure SameOutcome (result : State → State → Prop) (t t' : State) : Prop where
  code : t.code = t'.code
  ctx : t.ctx = t'.ctx
  rnd : t.rnd = t'.rnd
  result : t.code = 0#4 → t.ctx = none → result t t'

/-- No kind of error has the code of success (R150). -/
theorem ErrKind.code_ne_zero (k : ErrKind) : k.code ≠ 0#4 := by
  cases k <;> decide

theorem sameOutcome_raise {s s' : State} (R : State → State → Prop) (hrnd : s.rnd = s'.rnd) (k : ErrKind) :
    SameOutcome R (raise k s) (raise k s') :=
  ⟨rfl, rfl, hrnd, fun hk => absurd hk k.code_ne_zero⟩

/-- A value written to one of the eight registers is what both registers then hold. -/
theorem sameOutcome_complete {s s' : State} {rd : Nat} (hrd : rd < 8) (hrnd : s.rnd = s'.rnd) (hcode : s.code = s'.code)
    (r : Except ErrKind Nat) :
    SameOutcome (fun t t' => t.readX rd = t'.readX rd) (complete rd r s) (complete rd r s') := by
  cases r with
  | error k => exact sameOutcome_raise _ hrnd k
  | ok v => exact ⟨hcode, rfl, hrnd, fun _ _ => (readX_setX_self hrd v s).trans (readX_setX_self hrd v s').symm⟩

theorem sameOutcome_setPrime {s s' : State} (hrnd : s.rnd = s'.rnd) (hcode : s.code = s'.code) (b : Bool) :
    SameOutcome (·.prime = ·.prime) (commitOk (·.setPrime b) s) (commitOk (·.setPrime b) s') :=
  ⟨hcode, rfl, hrnd, fun _ _ => rfl⟩

/-- A command that goes on has no result yet. -/
theorem sameOutcome_goes_on {s s' : State} (R : State → State → Prop) (hrnd : s.rnd = s'.rnd)
    (hcode : s.code = s'.code) (c : Ctx) :
    SameOutcome R { s with ctx := some c } { s' with ctx := some c } :=
  ⟨hcode, rfl, hrnd, fun _ h => by cases h⟩

theorem sameOutcome_mrtestComplete {s s' : State} (hrnd : s.rnd = s'.rnd) (hcode : s.code = s'.code) (rounds : Nat)
    (c : Ctx) : SameOutcome (·.prime = ·.prime) (mrtestComplete rounds c s) (mrtestComplete rounds c s') := by
  unfold mrtestComplete
  split_ifs
  · exact sameOutcome_raise _ hrnd .invalidArgument
  · exact sameOutcome_setPrime hrnd hcode false
  · exact sameOutcome_setPrime hrnd hcode true
  · exact sameOutcome_setPrime hrnd hcode false
  · exact sameOutcome_setPrime hrnd hcode true
  · exact sameOutcome_goes_on _ hrnd hcode _

theorem sameOutcome_mrWord {s s' : State} (hrnd : s.rnd = s'.rnd) (hcode : s.code = s'.code) (rounds : Nat) (c : Ctx)
    (p : MrProgress) (w : Word) :
    SameOutcome (·.prime = ·.prime) (mrWord rounds c p w s) (mrWord rounds c p w s') := by
  unfold mrWord
  dsimp only
  split_ifs
  · exact sameOutcome_goes_on _ hrnd hcode _
  · exact sameOutcome_setPrime hrnd hcode true
  · exact sameOutcome_goes_on _ hrnd hcode _
  · exact sameOutcome_setPrime hrnd hcode false
  · exact sameOutcome_goes_on _ hrnd hcode _

/-- A draw hands the same word to both, or both hold. -/
theorem sameOutcome_drawWord {s s' : State} {c : Ctx} (hc : s.ctx = some c) (hc' : s'.ctx = some c)
    (hrnd : s.rnd = s'.rnd) (hcode : s.code = s'.code) (rounds : Nat) (p : MrProgress) :
    SameOutcome (·.prime = ·.prime) (drawWord s (mrWord rounds c p)) (drawWord s' (mrWord rounds c p)) := by
  unfold drawWord
  rw [← hrnd]
  split
  · rename_i w src _
    exact sameOutcome_mrWord (s := { s with rnd := src }) (s' := { s' with rnd := src }) rfl hcode rounds c p w
  · exact ⟨hcode, hc.trans hc'.symm, hrnd, fun _ h => by simp [hc] at h⟩

theorem sameOutcome_mrtest {s s' t t' : State} {ra imm : Nat} (hctx : s.ctx = s'.ctx) (hrnd : s.rnd = s'.rnd)
    (hcode : s.code = s'.code) (ht : exec (.mrtest ra imm) s = .next t) (ht' : exec (.mrtest ra imm) s' = .next t') :
    SameOutcome (·.prime = ·.prime) t t' := by
  obtain ⟨c, hc, rfl⟩ := onCommand_next.mp (show execMrtest imm s = .next t from ht)
  obtain ⟨c', hc', rfl⟩ := onCommand_next.mp (show execMrtest imm s' = .next t' from ht')
  obtain rfl : c = c' := Option.some.inj (hc.symm.trans (hctx.trans hc'))
  cases hmr : c.mr with
  | none => exact sameOutcome_mrtestComplete hrnd hcode imm c
  | some p => exact sameOutcome_drawWord hc hc' hrnd hcode imm p

theorem sameOutcome_cmp {s s' t t' : State} {ra rb : Nat} (hctx : s.ctx = s'.ctx) (hrnd : s.rnd = s'.rnd)
    (hcode : s.code = s'.code) (ht : exec (.cmp ra rb) s = .next t) (ht' : exec (.cmp ra rb) s' = .next t') :
    SameOutcome (fun t t' => t.eq = t'.eq ∧ t.lt = t'.lt) t t' := by
  obtain ⟨c, hc, rfl⟩ := exec_cmp_next ht
  obtain ⟨c', hc', rfl⟩ := exec_cmp_next ht'
  obtain rfl : c = c' := Option.some.inj (hc.symm.trans (hctx.trans hc'))
  exact ⟨hcode, rfl, hrnd, fun _ _ => ⟨rfl, rfl⟩⟩

theorem sameOutcome_register {s s' t t' : State} {i : Instr} {rd : Nat} {r : Ctx → Except ErrKind Nat}
    (hr : registerCommand i = some (rd, r)) (hrd : rd < 8) (hctx : s.ctx = s'.ctx) (hrnd : s.rnd = s'.rnd)
    (hcode : s.code = s'.code) (ht : exec i s = .next t) (ht' : exec i s' = .next t') :
    SameOutcome (fun t t' => t.readX rd = t'.readX rd) t t' := by
  obtain ⟨c, hc, rfl⟩ := exec_register_next hr ht
  obtain ⟨c', hc', rfl⟩ := exec_register_next hr ht'
  obtain rfl : c = c' := Option.some.inj (hc.symm.trans (hctx.trans hc'))
  exact sameOutcome_complete hrd hrnd hcode (r c)

/-- Settles O41: the two runs take the same branch, since every branch is chosen by the context and the word drawn. -/
theorem resultDependsOnTheLatchedValuesOnly : Obligations.ResultDependsOnTheLatchedValuesOnly := by
  intro s s' i t t' hwf hctx hrnd hcode _ ht ht'
  cases i with
  | mrtest ra imm =>
    obtain ⟨h1, h2, h3, h4⟩ := sameOutcome_mrtest hctx hrnd hcode ht ht'
    exact ⟨h1, h2, h3, h4⟩
  | cmp ra rb =>
    obtain ⟨h1, h2, h3, h4⟩ := sameOutcome_cmp hctx hrnd hcode ht ht'
    exact ⟨h1, h2, h3, h4⟩
  | modinv | gcd | modexp | modmul | modred =>
    obtain ⟨h1, h2, h3, h4⟩ := sameOutcome_register rfl hwf.1 hctx hrnd hcode ht ht'
    exact ⟨h1, h2, h3, h4⟩

end Sys2Proof.Machine
end

section
/-! SUPPORT and settled statements. The register window: what a read and an unsupported transaction do, and the writes
to operand limbs (R50 to R54, R62 to R64). -/

namespace Sys2Proof.Machine

/-! ## Reads -/

/-- A supported read is answered the value of its target; the host keeps it if it is `STATUS` (R50, R54, R79). -/
theorem transact_read {s : State} {off : Nat} {tgt : Target} (h : target s.nlimbs off = some tgt) :
    s.transact (.read off 4) =
      { s with answers := .okData (s.readTarget tgt) :: s.answers, seen := s.statusSeen off 4 } := by
  simp [State.transact, State.readAnswer, supported, inWindow_of_target h, h]

/-- No offset but that of `STATUS` changes the host's variable (R79). -/
theorem statusSeen_of_ne_status {s : State} {off : Nat} {tgt : Target} (h : target s.nlimbs off = some tgt)
    (hne : tgt ≠ .status) : s.statusSeen off 4 = s.seen := by
  have hs : supported s.nlimbs off 4 = some tgt := by rw [supported, if_pos rfl, h]
  unfold State.statusSeen
  split
  · rename_i heq
    exact absurd (Option.some.inj (hs.symm.trans heq)) hne
  · rfl

theorem windowRead_eq_some {s : State} {off : Nat} {w : Word} :
    s.windowRead off = some w ↔ ∃ tgt, target s.nlimbs off = some tgt ∧ s.readTarget tgt = w :=
  Option.map_eq_some_iff

/-- A limb reads at its offset (R52, R62). -/
theorem windowRead_limb {s : State} {i j : Nat} (hl : s.nlimbs ≤ 256) (hi : i < 8) (hj : j < s.nlimbs) :
    s.windowRead (0x1000 + 0x400 * i + 4 * j) = some (s.readLimb i j) :=
  windowRead_eq_some.mpr ⟨_, target_limb_offset hl hi hj, rfl⟩

/-- Settles O22: the offset names the limb, and its read is answered that limb. -/
theorem limbReadAnswersTheLimb : Obligations.LimbReadAnswersTheLimb := by
  refine ⟨fun s i j rest hl hi hj h => ?_, fun s hn hx => ?_⟩
  · have htgt := target_limb_offset hl.2 hi hj
    rw [step_of_host h, transact_read (s := { s with agenda := rest }) htgt,
      statusSeen_of_ne_status (s := { s with agenda := rest }) htgt (by simp)]
    rfl
  · have hread : ∀ j < 2, s.windowRead (0x1000 + 0x400 * 2 + 4 * j) =
        some (BitVec.ofNat 32 (limb 0x0000000100000002 j)) := fun j hj => by
      rw [windowRead_limb (by omega) (by decide) (by omega), State.readLimb, hx]
    exact ⟨hread 0 (by decide), hread 1 (by decide)⟩

/-- Settles O31: a read writes only the record of answers and the host's variable. -/
theorem readsHaveNoSideEffect : Obligations.ReadsHaveNoSideEffect := by
  intro s off size rest h
  refine ⟨_, _, step_of_host h, ?_⟩
  rintro rfl w hw
  obtain ⟨tgt, htgt, rfl⟩ := windowRead_eq_some.mp hw
  exact congrArg State.answers (transact_read (s := { s with agenda := rest }) htgt)

/-! ## Unsupported transactions -/

/-- An offset that is misaligned, or beyond `CMD` and no limb's, is not mapped (R51, R53). -/
theorem target_eq_none {nl off : Nat} (h : off % 4 ≠ 0 ∨
    (0x0014 ≤ off ∧ ¬ ∃ i j, i < 8 ∧ j < nl ∧ off = 0x1000 + 0x400 * i + 4 * j)) : target nl off = none := by
  refine Option.eq_none_iff_forall_ne_some.mpr fun tgt htgt => ?_
  rcases target_register htgt with ⟨rfl, -⟩ | ⟨rfl, -⟩ | ⟨rfl, -⟩ | ⟨rfl, -⟩ | ⟨rfl, -⟩ | ⟨i, j, -, ho, hi, hj⟩
  · omega
  · omega
  · omega
  · omega
  · omega
  · obtain hmis | ⟨-, hno⟩ := h
    · omega
    · exact hno ⟨i, j, hi, hj, ho⟩

theorem supported_eq_none {nl off size : Nat} (h : size ≠ 4 ∨ target nl off = none) :
    supported nl off size = none := by
  unfold supported
  split
  · rename_i hsize
    exact h.resolve_left (not_not_intro hsize)
  · rfl

/-- An unsupported transaction inside the window is answered `BusError` and does nothing else (R53). -/
theorem transact_unsupported {s : State} {off size : Nat} (hoff : off < Config.windowBytes)
    (h : supported s.nlimbs off size = none) :
    s.transact (.read off size) = { s with answers := .busError :: s.answers } ∧
    ∀ v, s.transact (.write off size v) = { s with answers := .busError :: s.answers } := by
  have hin : inWindow off = true := decide_eq_true hoff
  simp [State.transact, State.readAnswer, State.statusSeen, State.memWrite, State.writeAnswer, hin, h]

/-- Settles O26: each of the three conditions leaves the transaction unsupported. -/
theorem unsupportedTransactionsChangeNothing : Obligations.UnsupportedTransactionsChangeNothing := by
  intro s off size v rest _ hoff hbad
  obtain ⟨hread, hwrite⟩ := transact_unsupported (s := { s with agenda := rest }) hoff
    (supported_eq_none (hbad.imp_right target_eq_none))
  exact ⟨fun h => by rw [step_of_host h, hread], fun h => by rw [step_of_host h, hwrite]⟩

/-! ## Writes to `CMD` and to operand limbs -/

/-- Settles O25: both kinds of offset are mapped to a target whose write is dropped while busy. -/
theorem writesWhileBusyAreDropped : Obligations.WritesWhileBusyAreDropped := by
  intro s off v rest hl hb hoff h
  obtain ⟨hcmd, hlimb⟩ := writeTarget_busy (s := { s with agenda := rest }) hb v
  obtain rfl | ⟨i, j, hi, hj, rfl⟩ := hoff
  · rw [step_of_write h (target_cmd _), hcmd]
    rfl
  · rw [step_of_write h (target_limb_offset hl.2 hi hj), hlimb]
    rfl

/-- Limbs below a common low part agree. -/
theorem limb_eq_of_mod_eq {a b j k : Nat} (h : a % 2 ^ (32 * j) = b % 2 ^ (32 * j)) (hk : k < j) :
    limb a k = limb b k := by
  have hlow : ∀ n : Nat, limb n k = n % 2 ^ (32 * j) % 2 ^ (32 * (k + 1)) / 2 ^ (32 * k) := fun n => by
    rw [Nat.mod_mod_of_dvd n (pow_dvd_pow 2 (by omega)), Nat.mul_succ, pow_add, Nat.mod_mul_right_div_self, limb]
  rw [hlow, hlow, h]

/-- Limbs of a common high part agree. -/
theorem limb_eq_of_div_eq {a b j k : Nat} (h : a / 2 ^ (32 * j) = b / 2 ^ (32 * j)) (hk : j ≤ k) :
    limb a k = limb b k := by
  have hhigh : ∀ n : Nat, limb n k = n / 2 ^ (32 * j) / 2 ^ (32 * (k - j)) % 2 ^ 32 := fun n => by
    rw [Nat.div_div_eq_div_mul, ← pow_add, ← Nat.mul_add, Nat.add_sub_cancel' hk, limb]
  rw [hhigh, hhigh, h]

/-- Replacing a limb keeps what is below it (R63). -/
theorem replaceLimb_mod (a j : Nat) (v : Word) : replaceLimb a j v % 2 ^ (32 * j) = a % 2 ^ (32 * j) := by
  rw [replaceLimb_eq, Nat.mul_succ, pow_add, Nat.mul_assoc, Nat.add_mul_mod_self_left, Nat.add_mul_mod_self_left,
    Nat.mod_mod]

/-- Replacing a limb keeps what is above it (R63). -/
theorem replaceLimb_div (a j : Nat) (v : Word) :
    replaceLimb a j v / 2 ^ (32 * (j + 1)) = a / 2 ^ (32 * (j + 1)) := by
  have hpow : 2 ^ (32 * (j + 1)) = 2 ^ (32 * j) * 2 ^ 32 := by rw [← pow_add, Nat.mul_succ]
  have hlow : a % 2 ^ (32 * j) < 2 ^ (32 * j) := Nat.mod_lt _ (by positivity)
  have hlimb : 2 ^ (32 * j) * (v.toNat + 1) ≤ 2 ^ (32 * j) * 2 ^ 32 := Nat.mul_le_mul_left _ v.isLt
  have hsum : a % 2 ^ (32 * j) + 2 ^ (32 * j) * v.toNat < 2 ^ (32 * (j + 1)) := by
    rw [Nat.mul_succ] at hlimb
    omega
  rw [replaceLimb_eq, Nat.add_mul_div_left _ _ (by positivity), Nat.div_eq_of_lt hsum, Nat.zero_add]

/-- Replacing a limb: every other limb reads as before. -/
theorem limb_replaceLimb_ne (a : Nat) {j k : Nat} (v : Word) (h : k ≠ j) :
    limb (replaceLimb a j v) k = limb a k := by
  obtain hlt | hgt := Nat.lt_or_gt_of_ne h
  · exact limb_eq_of_mod_eq (replaceLimb_mod a j v) hlt
  · exact limb_eq_of_div_eq (replaceLimb_div a j v) hgt

/-- The step that is the host's write to a limb while idle (R63). -/
theorem step_of_limb_write {s : State} {i j : Nat} {v : Word} {rest : List Event} (hl : Config.LegalLimbs s.nlimbs)
    (hi : i < 8) (hj : j < s.nlimbs) (hb : s.busy = false)
    (h : s.agenda = .host (.write (0x1000 + 0x400 * i + 4 * j) 4 v) :: rest) :
    step s = .next { s with x := s.x.set i (replaceLimb (s.readX i) j v) hi, agenda := rest,
                            answers := .ok :: s.answers } := by
  rw [step_of_write h (target_limb_offset hl.2 hi hj), writeTarget_limb_idle (s := { s with agenda := rest }) hb,
    State.writeLimb, setX_eq_set hi]
  rfl

/-- Settles O23: the new value of the register, limb by limb. -/
theorem limbWriteWhileIdleReplacesOneLimb : Obligations.LimbWriteWhileIdleReplacesOneLimb := by
  intro s i j v rest hi hl hj hb h
  exact ⟨replaceLimb (s.readX i) j v, step_of_limb_write hl hi hj hb h, rfl, limb_replaceLimb_self _ j v,
    fun k hk => limb_replaceLimb_ne _ v hk⟩

end Sys2Proof.Machine
end

section
/-! SUPPORT and settled statements. The entropy port: the hold, and what each kind of source offers (R65, R79, R185). -/

namespace Sys2Proof.Machine

/-! ## The hold -/

/-- With no word on offer a draw leaves the state as it is (R65). -/
theorem drawWord_none {s : State} (h : s.rnd.next = none) (f : Word → State → State) : drawWord s f = s := by
  obtain ⟨-, hs⟩ | ⟨w, rest, hw, -⟩ := drawWord_cases s f
  · exact hs
  · simp [h] at hw

/-- The step of an `MRTEST` whose rounds have begun is a draw (R96). -/
theorem exec_mrtest_of_progress {s : State} {c : Ctx} {p : MrProgress} (hc : s.ctx = some c) (hp : c.mr = some p)
    (ra imm : Nat) : exec (.mrtest ra imm) s = .next (drawWord s (mrWord imm c p)) := by
  rw [exec, execMrtest, onCommand_some hc, hp]

/-- Under the invariant a command whose rounds have begun is an `MRTEST` (R31). -/
theorem decode_of_progress {s : State} {c : Ctx} {p : MrProgress} (h : Invariant s) (hc : s.ctx = some c)
    (hp : c.mr = some p) : ∃ ra imm, decode c.word = .command (.mrtest ra imm) := by
  have hneeds : needsWitness c.word c.va = true := by
    rw [← (h.ctx_inv c hc).draws_iff, hp]
    rfl
  obtain ⟨ra, imm, hd, -⟩ := (needsWitness_iff _ _).mp hneeds
  exact ⟨ra, imm, hd⟩

/-- The engine holds: it waits for a word and none is on offer (R65, R185). -/
theorem engineStep_holds {s : State} {c : Ctx} {p : MrProgress} (h : Invariant s) (hc : s.ctx = some c)
    (hp : c.mr = some p) (hnone : s.rnd.next = none) : engineStep s = .next s := by
  obtain ⟨ra, imm, hd⟩ := decode_of_progress h hc hp
  rw [engineStep_of_command hc hd, exec_mrtest_of_progress hc hp, drawWord_none hnone]

/-- A run of steps that leave the state as it is leaves the state as it is. -/
theorem run_of_step_self {s : State} (h : step s = .next s) (k : Nat) : Host.Core.run core k s = .next s := by
  induction k with
  | zero => rfl
  | succ k ih => rw [run_succ h, ih]

/-- Settles O43: with an empty agenda each step is the engine's, which holds. -/
theorem noWordHoldsForEver : Obligations.NoWordHoldsForEver := by
  intro s c p k h hc hp hnone hagenda
  refine run_of_step_self ?_ k
  rw [step_of_engineTurn (.inl ⟨hagenda, rfl⟩), ← hagenda]
  exact engineStep_holds h hc hp hnone

/-! ## The kinds of source -/

/-- The words listed come first. -/
theorem upcoming_listed (ws : List Word) (m : Nat) (more : Supply) :
    Source.upcoming (ws.length + m) { words := ws, more := more } =
      ws ++ Source.upcoming m { words := [], more := more } := by
  induction ws with
  | nil => rw [List.length_nil, Nat.zero_add, List.nil_append]
  | cons w ws ih => rw [List.length_cons, Nat.succ_add, upcoming_succ (next_listed w ws more), ih, List.cons_append]

/-- A listed source offers its words and then nothing. -/
theorem upcoming_exactly (ws : List Word) (m : Nat) : (Source.exactly ws).upcoming m = ws.take m := by
  induction ws generalizing m with
  | nil => rw [List.take_nil, upcoming_none (by rfl)]
  | cons w ws ih =>
    cases m with
    | zero => rfl
    | succ m => exact (upcoming_succ (next_listed w ws .silent) m).trans (congrArg (w :: ·) (ih m))

/-- Sources with the same word on offer, and the same source after it, offer the same words. -/
theorem upcoming_congr {src src' : Source} (h : src.next = src'.next) (m : Nat) :
    src.upcoming m = src'.upcoming m := by
  cases m with
  | zero => rfl
  | succ m => rw [Source.upcoming, Source.upcoming, h]

/-- A repeating source with no words listed offers as if its words were listed once more. -/
theorem next_repeating (us : List Word) : Source.next { words := [], more := .repeating us } =
    Source.next { words := us, more := .repeating us } := by
  cases us <;> rfl

/-- A repeating source offers its words again and again. -/
theorem upcoming_repeating (us : List Word) (n : Nat) :
    Source.upcoming (n * us.length) { words := [], more := .repeating us } = (List.replicate n us).flatten := by
  induction n with
  | zero => rw [Nat.zero_mul, upcoming_zero, List.replicate_zero, List.flatten_nil]
  | succ n ih =>
    rw [upcoming_congr (next_repeating us), Nat.succ_mul, Nat.add_comm, upcoming_listed, ih, List.replicate_succ,
      List.flatten_cons]

/-- A free source offers the free words in order. -/
theorem upcoming_free (n m : Nat) : Source.upcoming m { words := [], more := .free n } =
    (List.range m).map (fun j => Config.freeWord (n + j)) := by
  induction m generalizing n with
  | zero => rfl
  | succ m ih =>
    rw [upcoming_succ (next_free n), ih, List.range_succ_eq_map, List.map_cons, List.map_map]
    refine congrArg _ (List.map_congr_left fun j _ => ?_)
    exact congrArg Config.freeWord (by omega)

/-- Settles O56: the words listed, then what the kind of source gives. -/
theorem sourcesOfferTheirWordsInOrder : Obligations.SourcesOfferTheirWordsInOrder :=
  ⟨upcoming_exactly,
   fun ws us n => by rw [upcoming_listed, upcoming_repeating],
   fun ws n m => by rw [upcoming_listed, upcoming_free]⟩

end Sys2Proof.Machine
end

section
/-! SUPPORT and settled statements. The command word: decoding against encoding, against the opcode table and against
the list of illegal words (R71 to R77). -/

namespace Sys2Proof

open Laws.EncodedFields (fields)

/-! ## A word and its fields -/

/-- The fields `(op, rd, ra, rb, rm, imm)` of a word, in the order of `Laws.EncodedFields.fields` (R71). -/
def wordFields (w : Word) : Nat × Nat × Nat × Nat × Nat × Nat :=
  (opField w, rdField w, raField w, rbField w, rmField w, immField w)

/-- An opcode is below 16. -/
theorem opField_lt (w : Word) : opField w < 16 := by
  rw [opField, field_eq]
  exact Nat.mod_lt _ (by decide)

/-- A word with no reserved bit set is put together from its own fields. -/
theorem encodeFields_wordFields {w : Word} (h : reservedSet w = false) :
    encodeFields (opField w) (rdField w) (raField w) (rbField w) (rmField w) (immField w) = w := by
  obtain ⟨hrd, hra, hrb, hrm, himm⟩ := reg_fields_lt w
  refine BitVec.eq_of_toNat_eq ?_
  rw [encodeFields_toNat (opField_lt w) hrd hra hrb hrm himm]
  have hw := w.isLt
  simp only [reservedSet, getLsbD_eq, Bool.or_eq_false_iff, decide_eq_false_iff_not] at h
  simp only [opField, rdField, raField, rbField, rmField, immField, field_eq]
  omega

/-- Words with no reserved bit set are equal when their fields are. -/
theorem eq_of_wordFields_eq {v w : Word} (hv : reservedSet v = false) (hw : reservedSet w = false)
    (h : wordFields v = wordFields w) : v = w := by
  simp only [wordFields, Prod.mk.injEq] at h
  obtain ⟨hop, hrd, hra, hrb, hrm, himm⟩ := h
  rw [← encodeFields_wordFields hv, ← encodeFields_wordFields hw, hop, hrd, hra, hrb, hrm, himm]

/-! ## Decoding and encoding -/

/-- A word decodes to a command exactly when its reserved bits are 0 and its fields are the command's (R72, R74, R75). -/
theorem decode_eq_command_iff {w : Word} {i : Instr} :
    decode w = .command i ↔ reservedSet w = false ∧ wordFields w = fields i := by
  rw [decode_command]
  refine and_congr_right fun _ => ?_
  cases i <;> simp [wordFields, fields] <;> omega

/-- The encoding of a well-formed command has that command's fields and no reserved bit. -/
theorem encodedFields (i : Instr) : Laws.EncodedFields.Statement i := by
  cases i with
  | mrtest ra imm => exact Laws.EncodedFields.mrtest ra imm
  | modinv rd ra rm => exact Laws.EncodedFields.modinv rd ra rm
  | gcd rd ra rb => exact Laws.EncodedFields.gcd rd ra rb
  | modexp rd ra rb rm => exact Laws.EncodedFields.modexp rd ra rb rm
  | modmul rd ra rb rm => exact Laws.EncodedFields.modmul rd ra rb rm
  | modred rd ra rm => exact Laws.EncodedFields.modred rd ra rm
  | cmp ra rb => exact Laws.EncodedFields.cmp ra rb

/-- The encoding of a well-formed command decodes to it (R77). -/
theorem decode_encode {i : Instr} (h : i.WellFormed) : decode (encode i) = .command i := by
  obtain ⟨hfields, hreserved⟩ := encodedFields i h
  exact decode_eq_command_iff.mpr ⟨hreserved, hfields⟩

/-- A word has fields of their width only, so a command it decodes to is well formed (R71). -/
theorem wellFormed_of_decode {w : Word} {i : Instr} (h : decode w = .command i) : i.WellFormed := by
  obtain ⟨hrd, hra, hrb, hrm, himm⟩ := reg_fields_lt w
  obtain ⟨-, hrow⟩ := decode_command.mp h
  rcases hrow with ⟨-, -, rfl⟩ | ⟨-, -, rfl⟩ | ⟨-, -, rfl⟩ | ⟨-, -, rfl⟩ | ⟨-, -, rfl⟩ | ⟨-, -, rfl⟩ | ⟨-, -, rfl⟩
  · exact ⟨hra, himm⟩
  · exact ⟨hrd, hra, hrm⟩
  · exact ⟨hrd, hra, hrb⟩
  · exact ⟨hrd, hra, hrb, hrm⟩
  · exact ⟨hrd, hra, hrb, hrm⟩
  · exact ⟨hrd, hra, hrm⟩
  · exact ⟨hra, hrb⟩

/-- Two words that decode to one command are equal. -/
theorem eq_of_decode {v w : Word} {i : Instr} (hv : decode v = .command i) (hw : decode w = .command i) : v = w := by
  obtain ⟨hrv, hfv⟩ := decode_eq_command_iff.mp hv
  obtain ⟨hrw, hfw⟩ := decode_eq_command_iff.mp hw
  exact eq_of_wordFields_eq hrv hrw (hfv.trans hfw.symm)

/-- Settles O1: a command and its word have the same fields, and these fix the word. -/
theorem decodeAndEncodeAgree : Obligations.DecodeAndEncodeAgree := by
  refine ⟨fun i hi => decode_encode hi, fun w i hw => ?_, fun v w i => eq_of_decode⟩
  have hi := wellFormed_of_decode hw
  exact ⟨hi, eq_of_decode (decode_encode hi) hw⟩

/-! ## The opcode table -/

/-- A field of a masked word is the word's field, masked. -/
theorem field_and (w m : Word) (lo len : Nat) : field (w &&& m) lo len = field w lo len &&& field m lo len := by
  simp only [field, BitVec.extractLsb'_and, BitVec.toNat_and]

/-- The fields of a masked word are the word's fields, each masked by the mask's field. -/
theorem wordFields_and (w m : Word) : wordFields (w &&& m) =
    (opField w &&& opField m, rdField w &&& rdField m, raField w &&& raField m, rbField w &&& rbField m,
      rmField w &&& rmField m, immField w &&& immField m) := by
  simp only [wordFields, opField, rdField, raField, rbField, rmField, immField, field_and]

/-- A mask that keeps the four reserved bits keeps whether one is set. -/
theorem reservedSet_and (w : Word) {m : Word} (hm : m &&& 0x00088880#32 = 0x00088880#32) :
    reservedSet (w &&& m) = reservedSet w := by
  have hbit : ∀ k, (0x00088880#32).getLsbD k = true → m.getLsbD k = true := fun k hk => by
    rw [← hm, BitVec.getLsbD_and, Bool.and_eq_true] at hk
    exact hk.1
  simp only [reservedSet, BitVec.getLsbD_and, hbit 7 rfl, hbit 11 rfl, hbit 15 rfl, hbit 19 rfl, Bool.and_true]

/-- A field masked by a field of ones is kept. -/
theorem fields_and_ones (w : Word) : opField w &&& 15 = opField w ∧ rdField w &&& 7 = rdField w ∧
    rbField w &&& 7 = rbField w ∧ rmField w &&& 7 = rmField w ∧ immField w &&& 4095 = immField w := by
  obtain ⟨hrd, -, hrb, hrm, himm⟩ := reg_fields_lt w
  exact ⟨Nat.and_two_pow_sub_one_of_lt_two_pow (n := 4) (opField_lt w),
    Nat.and_two_pow_sub_one_of_lt_two_pow (n := 3) hrd, Nat.and_two_pow_sub_one_of_lt_two_pow (n := 3) hrb,
    Nat.and_two_pow_sub_one_of_lt_two_pow (n := 3) hrm, Nat.and_two_pow_sub_one_of_lt_two_pow (n := 12) himm⟩

/-- A row of the opcode table whose mask checks the opcode, the reserved bits and those fields in which `rd`, `rb`, `rm`
and `imm` are ones (R74): it gives the command `i` when `i` has 0 in the fields checked and the word's own values in the
others. -/
theorem masked_eq_iff_decode {w m : Word} {i : Instr} {op : Nat} (rd rb rm imm : Nat) (hop : op < 16)
    (hreserved : m &&& 0x00088880#32 = 0x00088880#32) (hm : wordFields m = (15, rd, 0, rb, rm, imm))
    (hrow : (opField w = op ∧ rdField w &&& rd = 0 ∧ rbField w &&& rb = 0 ∧ rmField w &&& rm = 0 ∧
      immField w &&& imm = 0) ↔ wordFields w = fields i) :
    w &&& m = BitVec.ofNat 32 op ↔ decode w = .command i := by
  obtain ⟨hv, hvr⟩ := Laws.EncodedFields.of_fields (rd := 0) (ra := 0) (rb := 0) (rm := 0) (imm := 0) hop (by decide)
    (by decide) (by decide) (by decide) (by decide) (BitVec.ofNat 32 op) rfl
  have hchecked : wordFields (w &&& m) = wordFields (BitVec.ofNat 32 op) ↔ wordFields w = fields i := by
    simp only [wordFields, Prod.mk.injEq] at hm
    obtain ⟨h1, h2, h3, h4, h5, h6⟩ := hm
    rw [wordFields_and, h1, h2, h3, h4, h5, h6, (fields_and_ones w).1, ← hrow, wordFields, hv]
    simp
  rw [decode_eq_command_iff, ← hchecked, ← reservedSet_and w hreserved]
  constructor
  · intro h
    rw [h]
    exact ⟨hvr, rfl⟩
  · rintro ⟨hr, hfields⟩
    exact eq_of_wordFields_eq hr hvr hfields

/-- The fields as R71 places them in the word's value. -/
theorem arith_eq_fields (w : Word) : w.toNat % 16 = opField w ∧ w.toNat / 2 ^ 4 % 8 = rdField w ∧
    w.toNat / 2 ^ 8 % 8 = raField w ∧ w.toNat / 2 ^ 12 % 8 = rbField w ∧ w.toNat / 2 ^ 16 % 8 = rmField w ∧
    w.toNat / 2 ^ 20 % 4096 = immField w := by
  simp [opField, rdField, raField, rbField, rmField, immField, field_eq]

/-- Settles O2: each row checks the fields its command does not use. -/
theorem decodeFollowsTheOpcodeTable : Obligations.DecodeFollowsTheOpcodeTable := by
  intro w
  obtain ⟨-, hrd, hrb, hrm, himm⟩ := fields_and_ones w
  obtain ⟨-, ard, ara, arb, arm, aimm⟩ := arith_eq_fields w
  rw [ard, ara, arb, arm, aimm]
  refine ⟨masked_eq_iff_decode 7 7 7 0 (by decide) (by decide) (by decide) ?_,
    masked_eq_iff_decode 0 7 0 4095 (by decide) (by decide) (by decide) ?_,
    masked_eq_iff_decode 0 0 7 4095 (by decide) (by decide) (by decide) ?_,
    masked_eq_iff_decode 0 0 0 4095 (by decide) (by decide) (by decide) ?_,
    masked_eq_iff_decode 0 0 0 4095 (by decide) (by decide) (by decide) ?_,
    masked_eq_iff_decode 0 7 0 4095 (by decide) (by decide) (by decide) ?_,
    masked_eq_iff_decode 7 0 7 4095 (by decide) (by decide) (by decide) ?_⟩
  all_goals simp [wordFields, fields, hrd, hrb, hrm, himm]

/-! ## The illegal words -/

/-- When a word is a command, whichever it is: no reserved bit set, an opcode of R74, and 0 in the fields that the
command does not use (R72). -/
theorem exists_decode_command_iff (w : Word) : (∃ i, decode w = .command i) ↔ reservedSet w = false ∧
    ((opField w = 1 ∧ rdField w = 0 ∧ rbField w = 0 ∧ rmField w = 0) ∨
     (opField w = 2 ∧ rbField w = 0 ∧ immField w = 0) ∨
     (opField w = 3 ∧ rmField w = 0 ∧ immField w = 0) ∨
     (opField w = 4 ∧ immField w = 0) ∨
     (opField w = 5 ∧ immField w = 0) ∨
     (opField w = 6 ∧ rbField w = 0 ∧ immField w = 0) ∨
     (opField w = 7 ∧ rdField w = 0 ∧ rmField w = 0 ∧ immField w = 0)) := by
  simp only [decode_command, exists_and_left, exists_or, exists_eq, and_true]

/-- The decoder is total: a word is illegal when it is no command. -/
theorem exists_illegal_iff (w : Word) : (∃ why, decode w = .illegal why) ↔ ¬ ∃ i, decode w = .command i := by
  cases decode w <;> simp

/-- The reserved bits in the word's value. -/
theorem reservedSet_iff (w : Word) : reservedSet w = true ↔ w.toNat / 2 ^ 7 % 2 = 1 ∨ w.toNat / 2 ^ 11 % 2 = 1 ∨
    w.toNat / 2 ^ 15 % 2 = 1 ∨ w.toNat / 2 ^ 19 % 2 = 1 := by
  simp only [reservedSet, getLsbD_eq, Bool.or_eq_true, decide_eq_true_eq, or_assoc]

/-- Settles O3: the listed reasons are, field by field, the negation of what a command asks for. -/
theorem illegalWordsAreExactlyThese : Obligations.IllegalWordsAreExactlyThese := by
  intro w
  obtain ⟨aop, ard, -, arb, arm, aimm⟩ := arith_eq_fields w
  rw [exists_illegal_iff, exists_decode_command_iff, ← Bool.not_eq_true, reservedSet_iff]
  simp only [aop, ard, arb, arm, aimm]
  have hop := opField_lt w
  omega

/-- Settles O4: the decoder evaluated on each word. -/
theorem specWordsDecodeAsListed : Obligations.SpecWordsDecodeAsListed := by
  unfold Obligations.SpecWordsDecodeAsListed
  decide

end Sys2Proof
end

section
/-! SUPPORT and settled statements. The host-script directives `LDX`, `RDX` and `WAIT` as runs of the machine (R62, R63,
R79). -/

namespace Sys2Proof.Machine

/-! ## Runs of a script -/

/-- A script of one event a step carries the machine along the states `st`, each with the events to come. -/
theorem run_script {event : Nat → Event} {st : Nat → List Event → State} {n : Nat} {rest : List Event}
    (hstep : ∀ j < n, ∀ es, step (st j (event j :: es)) = .next (st (j + 1) es)) :
    Host.Core.run core n (st 0 ((List.range n).map event ++ rest)) = .next (st n rest) := by
  have hfrom : ∀ k j, j + k = n →
      Host.Core.run core k (st j ((List.range' j k).map event ++ rest)) = .next (st n rest) := by
    intro k
    induction k with
    | zero =>
      rintro j rfl
      rfl
    | succ k ih =>
      intro j hj
      rw [List.range'_succ, List.map_cons, List.cons_append, run_succ (hstep j (by omega) _)]
      exact ih (j + 1) (by omega)
  rw [List.range_eq_range']
  exact hfrom n 0 (Nat.zero_add n)

/-! ## `LDX` -/

/-- `a` with its limbs below `k` replaced by those of `v`. -/
def spliceLimbs (a v k : Nat) : Nat := v % 2 ^ (32 * k) + 2 ^ (32 * k) * (a / 2 ^ (32 * k))

/-- Replacing no limb changes nothing. -/
theorem spliceLimbs_zero (a v : Nat) : spliceLimbs a v 0 = a := by
  simp [spliceLimbs, Nat.mod_one]

/-- Replacing all the limbs of a number leaves the other number. -/
theorem spliceLimbs_of_lt {a v n : Nat} (ha : a < 2 ^ (32 * n)) (hv : v < 2 ^ (32 * n)) : spliceLimbs a v n = v := by
  rw [spliceLimbs, Nat.mod_eq_of_lt hv, Nat.div_eq_of_lt ha, Nat.mul_zero, Nat.add_zero]

/-- A limb fits a word. -/
theorem toNat_limb (v j : Nat) : (BitVec.ofNat 32 (limb v j)).toNat = limb v j := by
  rw [BitVec.toNat_ofNat, limb, Nat.mod_mod]

/-- Replacing limb `k` on top of the limbs below it. -/
theorem replaceLimb_spliceLimbs (a v k : Nat) :
    replaceLimb (spliceLimbs a v k) k (BitVec.ofNat 32 (limb v k)) = spliceLimbs a v (k + 1) := by
  have hp : 0 < 2 ^ (32 * k) := by positivity
  have hlow : v % 2 ^ (32 * k) < 2 ^ (32 * k) := Nat.mod_lt _ hp
  have hsucc : 2 ^ (32 * (k + 1)) = 2 ^ (32 * k) * 2 ^ 32 := by rw [Nat.mul_succ, pow_add]
  have hmod : spliceLimbs a v k % 2 ^ (32 * k) = v % 2 ^ (32 * k) := by
    rw [spliceLimbs, Nat.add_mul_mod_self_left, Nat.mod_mod]
  have hdiv : spliceLimbs a v k / 2 ^ (32 * k) = a / 2 ^ (32 * k) := by
    rw [spliceLimbs, Nat.add_mul_div_left _ _ hp, Nat.div_eq_of_lt hlow, Nat.zero_add]
  rw [replaceLimb_eq, toNat_limb, hmod, hsucc, ← Nat.div_div_eq_div_mul, hdiv, spliceLimbs, hsucc, Nat.mod_mul,
    ← Nat.div_div_eq_div_mul, limb]

/-- `s` once `k` limbs of `LDX xi, V` are written, with the events to come. -/
def ldxState (s : State) (i v : Nat) (hi : i < 8) (k : Nat) (rest : List Event) : State :=
  { s with x := s.x.set i (spliceLimbs (s.readX i) v k) hi, agenda := rest,
           answers := List.replicate k .ok ++ s.answers }

theorem readX_ldxState (s : State) (i v : Nat) (hi : i < 8) (k : Nat) (rest : List Event) :
    (ldxState s i v hi k rest).readX i = spliceLimbs (s.readX i) v k := by
  simp [ldxState, State.readX, hi]

/-- The next write of `LDX`. -/
theorem step_ldxState {s : State} {i v k : Nat} (hl : Config.LegalLimbs s.nlimbs) (hb : s.busy = false) (hi : i < 8)
    (hk : k < s.nlimbs) (rest : List Event) :
    step (ldxState s i v hi k (.host (.write (Script.limbOffset i k) 4 (BitVec.ofNat 32 (limb v k))) :: rest)) =
      .next (ldxState s i v hi (k + 1) rest) := by
  refine (step_of_limb_write (s := ldxState s i v hi k _) hl hi hk hb rfl).trans ?_
  rw [readX_ldxState, replaceLimb_spliceLimbs]
  simp [ldxState, List.replicate_succ]

/-- A register of the eight, as the vector's element. -/
theorem getElem_eq_readX (s : State) {i : Nat} (hi : i < 8) : s.x[i] = s.readX i := by
  simp [State.readX, hi]

/-- Settles O24: each write replaces the next limb, and `nlimbs` limbs are the whole register. -/
theorem ldxLoadsTheValue : Obligations.LdxLoadsTheValue := by
  intro s i v rest hi h hb hv hagenda
  have hstart : s = ldxState s i v hi 0 (Script.ldx s.nlimbs i v ++ rest) := by
    rw [← hagenda, ldxState, spliceLimbs_zero, ← getElem_eq_readX s hi, Vector.set_getElem_self]
    rfl
  have hrun := run_script (rest := rest) fun k hk es => step_ldxState (v := v) h.limbs hb hi hk es
  rw [← Script.ldx, ← hstart, ldxState, spliceLimbs_of_lt (h.regs i hi) hv] at hrun
  exact hrun

/-! ## `RDX` -/

/-- `s` once `k` limbs of `x[i]` are read, with the events to come. -/
def rdxState (s : State) (i k : Nat) (rest : List Event) : State :=
  { s with agenda := rest, answers := ((List.range k).map fun j => .okData (s.readLimb i j)).reverse ++ s.answers }

/-- The next read of `RDX`. -/
theorem step_rdxState {s : State} {i k : Nat} (hl : Config.LegalLimbs s.nlimbs) (hi : i < 8)
    (hk : k < s.nlimbs) (rest : List Event) :
    step (rdxState s i k (.host (.read (Script.limbOffset i k) 4) :: rest)) = .next (rdxState s i (k + 1) rest) := by
  refine (limbReadAnswersTheLimb.1 (rdxState s i k _) i k rest hl hi hk rfl).trans ?_
  rw [rdxState, rdxState, List.range_succ, List.map_append, List.reverse_append]
  rfl

/-- The value of the lowest `n` limbs of `a`. -/
theorem wordsValue_limbs (a n : Nat) :
    wordsValue ((List.range n).map fun j => BitVec.ofNat 32 (limb a j)) = a % 2 ^ (32 * n) := by
  induction n generalizing a with
  | zero => simp [wordsValue, Nat.mod_one]
  | succ n ih =>
    have hshift : ∀ j, limb a (j + 1) = limb (a / 2 ^ 32) j := fun j => by
      rw [limb, limb, Nat.div_div_eq_div_mul, ← pow_add, Nat.mul_succ, Nat.add_comm]
    rw [List.range_succ_eq_map, List.map_cons, List.map_map, wordsValue, toNat_limb]
    simp only [Function.comp_def, hshift, Nat.succ_eq_add_one]
    rw [ih, Nat.mul_succ, Nat.add_comm (32 * n), pow_add, Nat.mod_mul, limb, Nat.mul_zero, pow_zero, Nat.div_one]

/-- The value `RDX` gives once all `n` limbs are read. -/
theorem rdxValue_rdxState (s : State) (i n : Nat) (rest : List Event) :
    Script.rdxValue n (rdxState s i n rest) = s.readX i % 2 ^ (32 * n) := by
  have htake : (rdxState s i n rest).answers.take n =
      ((List.range n).map fun j => .okData (s.readLimb i j)).reverse := by
    rw [rdxState, List.take_left' (by simp)]
  rw [Script.rdxValue, htake, List.reverse_reverse, List.filterMap_map, ← wordsValue_limbs, ← List.filterMap_eq_map]
  rfl

/-- Settles O57: each read adds the next limb to the record, and all the limbs give the register's value. -/
theorem rdxReadsTheValue : Obligations.RdxReadsTheValue := by
  intro s i rest h hi hagenda
  have hstart : s = rdxState s i 0 (Script.rdx s.nlimbs i ++ rest) := by
    rw [← hagenda]
    rfl
  have hrun := run_script (rest := rest) fun k hk es => step_rdxState h.limbs hi hk es
  rw [← Script.rdx, ← hstart] at hrun
  refine ⟨rdxState s i s.nlimbs rest, hrun, ?_, rfl⟩
  rw [rdxValue_rdxState]
  exact Nat.mod_eq_of_lt (h.regs i hi)

/-! ## `WAIT` -/

/-- A read of `STATUS` is answered `STATUS`, and the host keeps the value (R27, R79). -/
theorem transact_read_status (s : State) : s.transact (.read 0x0008 4) =
    { s with answers := .okData s.statusWord :: s.answers, seen := s.statusWord } :=
  transact_read (target_status s.nlimbs)

/-- One `WAIT` read, by `DONE`: only what comes next depends on it. -/
theorem pollStep_eq (s : State) : pollStep s =
    { s with agenda := if s.done then s.agenda else .engine :: .poll :: s.agenda,
             answers := .okData s.statusWord :: s.answers, seen := s.statusWord } := by
  have hbit : s.statusWord.getLsbD 1 = s.done := statusWord_bit s 1
  simp only [pollStep, transact_read_status, hbit]
  split <;> rfl

/-- Settles O44: bit 1 of the value read is `DONE`. -/
theorem waitReadsStatusUntilDone : Obligations.WaitReadsStatusUntilDone := by
  intro s rest hagenda
  have hstep : step s = .next (pollStep { s with agenda := rest }) := step_of_cons hagenda
  rw [hstep, pollStep_eq]
  exact ⟨fun hdone => by rw [if_pos hdone]; rfl, fun hdone => by rw [if_neg (by simp [hdone])]; rfl⟩

end Sys2Proof.Machine
end

section
/-! SUPPORT and settled statements. The arithmetic of the Miller–Rabin test: `decomp`, candidates and witnesses, and
what a round decides (R92, R93, R94, R101). -/

namespace Sys2Proof.Machine

/-! ## `decomp` -/

/-- The power of two of `2 ^ a * s` is at most that of `2 ^ b * t` when `t` is odd and the two are equal. -/
theorem exponent_le_of_odd {a b s t : Nat} (h : 2 ^ a * s = 2 ^ b * t) (ht : t % 2 = 1) : a ≤ b := by
  have hcop : Nat.Coprime (2 ^ a) t := (Nat.coprime_two_left.mpr (Nat.odd_iff.mpr ht)).pow_left a
  have hdvd : 2 ^ a ∣ 2 ^ b * t := ⟨s, h.symm⟩
  exact (Nat.pow_dvd_pow_iff_le_right (by decide)).mp (hcop.dvd_of_dvd_mul_right hdvd)

/-- A number has one factorisation into a power of two and an odd number. -/
theorem two_pow_mul_odd_unique {a b s t : Nat} (h : 2 ^ a * s = 2 ^ b * t) (hs : s % 2 = 1) (ht : t % 2 = 1) :
    (a, s) = (b, t) := by
  obtain rfl : a = b := le_antisymm (exponent_le_of_odd h ht) (exponent_le_of_odd h.symm hs)
  rw [Nat.eq_of_mul_eq_mul_left (by positivity) h]

/-- `decomp` splits `n - 1` into a power of two and an odd number (R92). -/
theorem decomp_spec {n : Nat} (h : 2 ≤ n) : n - 1 = 2 ^ (decomp n).1 * (decomp n).2 ∧ (decomp n).2 % 2 = 1 := by
  have hloop := decompLoop_spec (r := 0) (s := n - 1) (by omega) (lt_two_pow_bitlen (n - 1))
  rwa [pow_zero, one_mul] at hloop

/-- For an odd `n` at least one halving is made. -/
theorem one_le_decomp {n : Nat} (h : 2 ≤ n) (hodd : n % 2 = 1) : 1 ≤ (decomp n).1 := by
  obtain ⟨hprod, hs⟩ := decomp_spec h
  refine Nat.one_le_iff_ne_zero.mpr fun hr => ?_
  rw [hr, pow_zero, one_mul] at hprod
  omega

/-- There are fewer halvings than `n` has bits. -/
theorem decomp_lt_of_lt {n k : Nat} (h : 2 ≤ n) (hk : n < 2 ^ k) : (decomp n).1 < k := by
  obtain ⟨hprod, hs⟩ := decomp_spec h
  have hle : 2 ^ (decomp n).1 ≤ n - 1 := hprod ▸ Nat.le_mul_of_pos_right _ (by omega)
  exact (Nat.pow_lt_pow_iff_right (by decide)).mp (show 2 ^ (decomp n).1 < 2 ^ k by omega)

/-- Settles O47: `decomp` gives one such pair, and a power of two times an odd number determines both. -/
theorem decompIsTheUniquePair : Obligations.DecompIsTheUniquePair := by
  refine ⟨fun n h3 hodd => ?_, by decide⟩
  obtain ⟨hprod, hs⟩ := decomp_spec (show 2 ≤ n by omega)
  refine ⟨⟨hprod, hs, one_le_decomp (by omega) hodd⟩, fun r s hrs hodd' => ?_, fun nlimbs hn => ?_⟩
  · exact two_pow_mul_odd_unique (hprod.symm.trans hrs) hs hodd'
  · exact (decomp_lt_of_lt (by omega) hn).le

/-! ## Candidates and witnesses -/

/-- A candidate's words have all the bits it uses (R93). -/
theorem candidateBits_le (n : Nat) : candidateBits n ≤ 32 * candidateWords n := by
  unfold candidateWords
  omega

/-- A candidate takes no more words than a register that holds `n` has limbs (R93). -/
theorem candidateWords_le {n nlimbs : Nat} (h : n < 2 ^ Config.width nlimbs) : candidateWords n ≤ nlimbs := by
  have hbits : candidateBits n ≤ 32 * nlimbs := bitlen_le_of_lt (show n - 4 < 2 ^ (32 * nlimbs) from by
    rw [Config.width, Config.limbBits] at h
    omega)
  unfold candidateWords
  omega

theorem accepted_iff {n : Nat} {ws : List Word} : accepted n ws = true ↔ candidate n ws ≤ n - 4 := by
  rw [accepted, decide_eq_true_iff]

/-- An accepted candidate gives a witness in `[2, n - 2]` (R93). -/
theorem witness_in_range {n : Nat} {ws : List Word} (h4 : 4 ≤ n) (h : accepted n ws = true) :
    2 ≤ candidate n ws + 2 ∧ candidate n ws + 2 ≤ n - 2 := by
  rw [accepted_iff] at h
  omega

/-- Every value that has no more bits than `n - 4` is a candidate (R93). -/
theorem exists_candidate {n v : Nat} (h : v < 2 ^ candidateBits n) :
    ∃ ws : List Word, ws.length = candidateWords n ∧ candidate n ws = v := by
  refine ⟨(List.range (candidateWords n)).map fun j => BitVec.ofNat 32 (limb v j), by simp, ?_⟩
  have hwords : v < 2 ^ (32 * candidateWords n) :=
    h.trans_le (Nat.pow_le_pow_right (by decide) (candidateBits_le n))
  rw [candidate, wordsValue_limbs, Nat.mod_eq_of_lt hwords, Nat.mod_eq_of_lt h]

/-- Settles O48: a witness `a` is given by the words of `a - 2`, which has no more bits than `n - 4`. -/
theorem witnessesCoverTheirRange : Obligations.WitnessesCoverTheirRange := by
  intro n nlimbs h5 _ hn
  refine ⟨⟨candidateWords_pos h5, candidateWords_le hn⟩, fun ws _ hacc => witness_in_range (by omega) hacc,
    fun a h2 ha => ?_⟩
  have hlt : a - 2 < 2 ^ candidateBits n := (show a - 2 ≤ n - 4 by omega).trans_lt (lt_two_pow_bitlen (n - 4))
  obtain ⟨ws, hlen, hcand⟩ := exists_candidate hlt
  exact ⟨ws, hlen, accepted_iff.mpr (by omega), by omega⟩

/-! ## A round -/

/-- `modpow` is the power modulo `m` (R125). -/
theorem modpow_eq_pow_mod (b e : Nat) {m : Nat} (h : 0 < m) : modpow b e m = b ^ e % m := by
  rw [modpow, modpowLoop_eq _ _ (Nat.mod_lt 1 h), Nat.mod_eq_of_lt (lt_two_pow_bitlen e), Nat.mul_mod, ← Nat.pow_mod,
    one_pow, ← Nat.mul_mod, one_mul]

/-- A round passes exactly when `a ^ s` is 1 or one of the `r` powers is `n - 1`: the first of them is `a ^ s`, the
others are the squarings (R94). -/
theorem mrRound_iff {n a : Nat} (h : 2 ≤ n) (hodd : n % 2 = 1) : mrRound n a = true ↔
    a ^ (decomp n).2 % n = 1 ∨ ∃ j, j < (decomp n).1 ∧ a ^ (2 ^ j * (decomp n).2) % n = n - 1 := by
  have hr := one_le_decomp h hodd
  have hpow : ∀ j, (a ^ (decomp n).2 % n) ^ 2 ^ j % n = a ^ (2 ^ j * (decomp n).2) % n := fun j => by
    rw [← Nat.pow_mod, ← pow_mul, mul_comm]
  have hround : mrRound n a = true ↔ (a ^ (decomp n).2 % n = 1 ∨ a ^ (decomp n).2 % n = n - 1) ∨
      ∃ j, 1 ≤ j ∧ j ≤ (decomp n).1 - 1 ∧ a ^ (2 ^ j * (decomp n).2) % n = n - 1 := by
    simp only [mrRound, modpow_eq_pow_mod a _ (show 0 < n by omega), Bool.if_true_left, Bool.or_eq_true,
      decide_eq_true_iff, squaringLoop_iff, hpow]
  rw [hround, or_assoc]
  refine or_congr_right ⟨?_, ?_⟩
  · rintro (h0 | ⟨j, -, hj, hpj⟩)
    · exact ⟨0, hr, by rwa [pow_zero, one_mul]⟩
    · exact ⟨j, by omega, hpj⟩
  · rintro ⟨_ | j, hj, hpj⟩
    · exact .inl (by rwa [pow_zero, one_mul] at hpj)
    · exact .inr ⟨j + 1, by omega, by omega, hpj⟩

/-- Settles O49: `mrRound_iff` on its range. -/
theorem roundPassesExactlyWhen : Obligations.RoundPassesExactlyWhen :=
  fun _ _ h5 hodd _ _ => mrRound_iff (by omega) hodd

/-! ## Primes -/

/-- Where 1 has no square roots but 1 and -1, repeated squaring reaches 1 from 1 or by way of -1. -/
theorem eq_one_or_exists_pow_eq_neg_one {R : Type} [Ring R] [NoZeroDivisors R] {x : R} :
    ∀ {r : Nat}, x ^ 2 ^ r = 1 → x = 1 ∨ ∃ j, j < r ∧ x ^ 2 ^ j = -1
  | 0, h => .inl (by rwa [pow_zero, pow_one] at h)
  | r + 1, h => by
    rw [pow_succ, pow_mul] at h
    rcases sq_eq_one_iff.mp h with h1 | hneg
    · exact (eq_one_or_exists_pow_eq_neg_one h1).imp_right fun ⟨j, hj, hpj⟩ => ⟨j, by omega, hpj⟩
    · exact .inr ⟨r, by omega, hneg⟩

/-- A residue below `n` as an element of the integers modulo `n`. -/
theorem mod_eq_iff_cast_eq {n v w : Nat} (h : w < n) : v % n = w ↔ (v : ZMod n) = (w : ZMod n) := by
  rw [ZMod.natCast_eq_natCast_iff', Nat.mod_eq_of_lt h]

/-- The round of a witness that a prime does not divide passes: by Fermat `a ^ s` reaches 1 by squarings (R101). -/
theorem mrRound_of_prime {n a : Nat} (hp : Nat.Prime n) (hodd : n % 2 = 1) (ha : ¬ n ∣ a) : mrRound n a = true := by
  have : Fact n.Prime := ⟨hp⟩
  have h2 := hp.two_le
  have hfermat : ((a : ZMod n) ^ (decomp n).2) ^ 2 ^ (decomp n).1 = 1 := by
    rw [← pow_mul, mul_comm, ← (decomp_spec h2).1]
    exact ZMod.pow_card_sub_one_eq_one (mt (ZMod.natCast_eq_zero_iff a n).mp ha)
  refine (mrRound_iff h2 hodd).mpr ?_
  rcases eq_one_or_exists_pow_eq_neg_one hfermat with h1 | ⟨j, hj, hneg⟩
  · exact .inl ((mod_eq_iff_cast_eq (by omega)).mpr (by rw [Nat.cast_pow, h1, Nat.cast_one]))
  · refine .inr ⟨j, hj, (mod_eq_iff_cast_eq (by omega)).mpr ?_⟩
    rw [Nat.cast_pow, mul_comm, pow_mul, hneg, Nat.cast_pred (by omega), ZMod.natCast_self, zero_sub]

/-- Settles O50: a prime `n >= 5` is odd and divides no `a` in `[2, n - 2]`. -/
theorem aPrimePassesEveryRound : Obligations.APrimePassesEveryRound := by
  intro n a hp h5 h2 ha
  have hodd : n % 2 = 1 := hp.eq_two_or_odd.resolve_left (by omega)
  exact mrRound_of_prime hp hodd fun hdvd => by
    have := Nat.le_of_dvd (by omega) hdvd
    omega

end Sys2Proof.Machine
end

section
/-! SUPPORT and settled statements. `MRTEST` on the engine: its checks, one word a step, and the steps together as the
rounds loop of R95 (R91, R96, R97, R185). -/

namespace Sys2Proof.Machine

/-! ## The checks before any witness -/

/-- The step of an `MRTEST` that draws no word is the checks of R91. -/
theorem exec_mrtest_of_no_progress {s : State} {c : Ctx} (hc : s.ctx = some c) (hmr : c.mr = none) (ra imm : Nat) :
    exec (.mrtest ra imm) s = .next (mrtestComplete imm c s) := by
  rw [exec, execMrtest, onCommand_some hc, hmr]

/-- Settles O15: each case of R91 is the first check that holds. -/
theorem mrtestChecksBeforeAnyWitness : Obligations.MrtestChecksBeforeAnyWitness := by
  intro s c ra imm hc hmr
  rw [exec_mrtest_of_no_progress hc hmr]
  refine ⟨fun h0 => ?_, fun h0 h2 => ?_, fun h0 h2 => ?_, fun h0 h2 heven => ?_, fun h0 h3 => ?_⟩ <;>
    unfold mrtestComplete
  · rw [if_pos h0]
    rfl
  · rw [if_neg h0, if_pos h2]
    rfl
  · rw [if_neg h0, if_neg (by omega), if_pos h2]
    rfl
  · rw [if_neg h0, if_neg (by omega), if_neg (by omega), if_pos heven]
    rfl
  · rw [if_neg h0, if_neg (by omega), if_neg (by omega), if_neg (by omega), if_pos h3]
    rfl

/-! ## One word a step -/

/-- What the end of a word leaves of a test: a verdict, or the progress it goes on with (R96). -/
inductive MrOutcome where
  | verdict (b : Bool)
  | goesOn (q : MrProgress)

/-- What `i` rounds passed of `rounds` leave: the verdict 1, or the next round to run (R95). -/
def passedOutcome (rounds i : Nat) : MrOutcome :=
  if i = rounds then .verdict true else .goesOn { i := i, buf := [] }

/-- What round `i` on the witness `a` leaves (R94, R95). -/
def roundOutcome (n rounds i a : Nat) : MrOutcome :=
  if mrRound n a = true then passedOutcome rounds (i + 1) else .verdict false

/-- What a complete candidate of round `i` leaves: rejected, no round is counted (R93, R96). -/
def candidateOutcome (n rounds i : Nat) (buf : List Word) : MrOutcome :=
  if accepted n buf = true then roundOutcome n rounds i (candidate n buf + 2) else .goesOn { i := i, buf := [] }

/-- What the word `w` leaves of a test with progress `p` (R96). -/
def wordOutcome (n rounds : Nat) (p : MrProgress) (w : Word) : MrOutcome :=
  if (p.buf ++ [w]).length < candidateWords n then .goesOn { i := p.i, buf := p.buf ++ [w] }
  else candidateOutcome n rounds p.i (p.buf ++ [w])

/-- The outcome as the engine writes it to the state. -/
def MrOutcome.apply (c : Ctx) (s : State) : MrOutcome → State
  | .verdict b => commitOk (·.setPrime b) s
  | .goesOn q => { s with ctx := some { c with mr := some q } }

theorem passedOutcome_all {rounds i : Nat} (h : i = rounds) : passedOutcome rounds i = .verdict true := if_pos h

theorem passedOutcome_some {rounds i : Nat} (h : i ≠ rounds) :
    passedOutcome rounds i = .goesOn { i := i, buf := [] } := if_neg h

theorem roundOutcome_passes {n a : Nat} (h : mrRound n a = true) (rounds i : Nat) :
    roundOutcome n rounds i a = passedOutcome rounds (i + 1) := if_pos h

theorem roundOutcome_fails {n a : Nat} (h : mrRound n a = false) (rounds i : Nat) :
    roundOutcome n rounds i a = .verdict false := if_neg (by simp [h])

theorem candidateOutcome_accepted {n : Nat} {buf : List Word} (h : accepted n buf = true) (rounds i : Nat) :
    candidateOutcome n rounds i buf = roundOutcome n rounds i (candidate n buf + 2) := if_pos h

theorem candidateOutcome_rejected {n : Nat} {buf : List Word} (h : ¬ accepted n buf = true) (rounds i : Nat) :
    candidateOutcome n rounds i buf = .goesOn { i := i, buf := [] } := if_neg h

theorem wordOutcome_incomplete {n : Nat} {p : MrProgress} {w : Word} (h : (p.buf ++ [w]).length < candidateWords n)
    (rounds : Nat) : wordOutcome n rounds p w = .goesOn { i := p.i, buf := p.buf ++ [w] } := if_pos h

theorem wordOutcome_complete {n : Nat} {p : MrProgress} {w : Word} (h : candidateWords n ≤ (p.buf ++ [w]).length)
    (rounds : Nat) : wordOutcome n rounds p w = candidateOutcome n rounds p.i (p.buf ++ [w]) := if_neg h.not_gt

theorem wordOutcome_accepted {n : Nat} {p : MrProgress} {w : Word} (hlen : candidateWords n ≤ (p.buf ++ [w]).length)
    (h : accepted n (p.buf ++ [w]) = true) (rounds : Nat) :
    wordOutcome n rounds p w = roundOutcome n rounds p.i (candidate n (p.buf ++ [w]) + 2) :=
  (wordOutcome_complete hlen rounds).trans (candidateOutcome_accepted h rounds p.i)

theorem wordOutcome_rejected {n : Nat} {p : MrProgress} {w : Word} (hlen : candidateWords n ≤ (p.buf ++ [w]).length)
    (h : ¬ accepted n (p.buf ++ [w]) = true) (rounds : Nat) :
    wordOutcome n rounds p w = .goesOn { i := p.i, buf := [] } :=
  (wordOutcome_complete hlen rounds).trans (candidateOutcome_rejected h rounds p.i)

/-- `MR_WORD` writes the word's outcome (R96). -/
theorem mrWord_eq_apply (rounds : Nat) (c : Ctx) (p : MrProgress) (w : Word) (s : State) :
    mrWord rounds c p w s = (wordOutcome c.va rounds p w).apply c s := by
  rcases mrWord_cases rounds c p w s with ⟨hlen, h⟩ | ⟨hlen, hacc, h⟩ | ⟨hlen, hacc, hround, h⟩ |
    ⟨hlen, hacc, hround, hi, h⟩ | ⟨hlen, hacc, hround, hi, h⟩ <;> rw [h]
  · rw [wordOutcome_incomplete hlen]
    rfl
  · rw [wordOutcome_rejected hlen (by simp [hacc])]
    rfl
  · rw [wordOutcome_accepted hlen hacc, roundOutcome_fails hround]
    rfl
  · rw [wordOutcome_accepted hlen hacc, roundOutcome_passes hround, passedOutcome_all hi]
    rfl
  · rw [wordOutcome_accepted hlen hacc, roundOutcome_passes hround, passedOutcome_some hi]
    rfl

theorem drawWord_some {s : State} {w : Word} {src : Source} (h : s.rnd.next = some (w, src))
    (f : Word → State → State) : drawWord s f = f w { s with rnd := src } := by
  simp only [drawWord, h]

/-- With a word on offer the step of an `MRTEST` whose rounds have begun takes it (R96). -/
theorem exec_mrtest_of_word {s : State} {c : Ctx} {p : MrProgress} {w : Word} {src : Source} (hc : s.ctx = some c)
    (hp : c.mr = some p) (hw : s.rnd.next = some (w, src)) (ra imm : Nat) :
    exec (.mrtest ra imm) s = .next ((wordOutcome c.va imm p w).apply c { s with rnd := src }) := by
  rw [exec_mrtest_of_progress hc hp, drawWord_some hw, mrWord_eq_apply]

/-- Settles O16: the hold, and the five outcomes of a word. -/
theorem mrtestTakesOneWordAStep : Obligations.MrtestTakesOneWordAStep := by
  intro s c p ra imm hc hp
  refine ⟨fun hnone => by rw [exec_mrtest_of_progress hc hp, drawWord_none hnone], ?_⟩
  rintro w src _ k v hw rfl hk hv
  have hwords : (k + 31) / 32 = candidateWords c.va := by rw [hk]; rfl
  obtain rfl : v = candidate c.va (p.buf ++ [w]) := by rw [hv, hk]; rfl
  rw [hwords, exec_mrtest_of_word hc hp hw]
  refine ⟨fun hlen => ?_, fun hlen hrej => ?_, fun hlen hacc hround => ?_, fun hlen hacc hround hi => ?_,
    fun hlen hacc hround hi => ?_⟩
  · rw [wordOutcome_incomplete hlen]
    rfl
  · rw [wordOutcome_rejected hlen (mt accepted_iff.mp hrej.not_ge)]
    rfl
  · rw [wordOutcome_accepted hlen (accepted_iff.mpr hacc), roundOutcome_fails hround]
    rfl
  · rw [wordOutcome_accepted hlen (accepted_iff.mpr hacc), roundOutcome_passes hround, passedOutcome_all hi]
    rfl
  · rw [wordOutcome_accepted hlen (accepted_iff.mpr hacc), roundOutcome_passes hround, passedOutcome_some hi]
    rfl

/-! ## Primes -/

/-- The checks of R91 never find a prime composite. -/
theorem mrtestComplete_of_prime {c : Ctx} (hp : Nat.Prime c.va) (rounds : Nat) (s : State) :
    mrtestComplete rounds c s = raise .invalidArgument s ∨ mrtestComplete rounds c s = commitOk (·.setPrime true) s ∨
    ∃ q, mrtestComplete rounds c s = { s with ctx := some { c with mr := some q } } := by
  have h2 := hp.two_le
  have hodd := hp.eq_two_or_odd
  unfold mrtestComplete
  split_ifs with h0 hlt htwo heven hthree
  · exact .inl rfl
  · omega
  · exact .inr <| .inl rfl
  · omega
  · exact .inr <| .inl rfl
  · exact .inr <| .inr ⟨_, rfl⟩

/-- No word makes the test of a prime end with the verdict 0 (R101). -/
theorem wordOutcome_of_prime {n rounds : Nat} {p : MrProgress} {w : Word} (hp : Nat.Prime n) (h5 : 5 ≤ n) :
    wordOutcome n rounds p w ≠ .verdict false := by
  by_cases hlen : (p.buf ++ [w]).length < candidateWords n
  · simp [wordOutcome_incomplete hlen]
  by_cases hacc : accepted n (p.buf ++ [w]) = true
  · obtain ⟨hlow, hhigh⟩ := witness_in_range (by omega) hacc
    rw [wordOutcome_accepted (not_lt.mp hlen) hacc, roundOutcome_passes (aPrimePassesEveryRound n _ hp h5 hlow hhigh)]
    by_cases hi : p.i + 1 = rounds
    · simp [passedOutcome_all hi]
    · simp [passedOutcome_some hi]
  · simp [wordOutcome_rejected (not_lt.mp hlen) hacc]

/-- Settles O51: of the steps that end the command without error, none commits the verdict 0. -/
theorem aPrimeIsNeverDeclaredComposite : Obligations.APrimeIsNeverDeclaredComposite := by
  intro s t c ra imm h hc hd hp ht hbusy hcode
  have hflight : s.busy = true := by rw [h.busy_iff, hc, Option.isSome_some]
  cases hmr : c.mr with
  | none =>
    rw [exec_mrtest_of_no_progress hc hmr] at ht
    obtain rfl := Host.Outcome.next.inj ht
    rcases mrtestComplete_of_prime hp imm s with hs | hs | ⟨q, hs⟩ <;> rw [hs] at hbusy hcode ⊢
    · exact absurd hcode (ErrKind.code_ne_zero .invalidArgument)
    · rfl
    · exact absurd (hflight.symm.trans hbusy) (by decide)
  | some p =>
    cases hnext : s.rnd.next with
    | none =>
      rw [exec_mrtest_of_progress hc hmr, drawWord_none hnext] at ht
      obtain rfl := Host.Outcome.next.inj ht
      exact absurd (hflight.symm.trans hbusy) (by decide)
    | some offer =>
      obtain ⟨w, src⟩ := offer
      rw [exec_mrtest_of_word hc hmr hnext] at ht
      obtain rfl := Host.Outcome.next.inj ht
      cases hout : wordOutcome c.va imm p w with
      | verdict b =>
        cases b with
        | true => rfl
        | false => exact absurd hout (wordOutcome_of_prime hp (five_le_of_progress h hc hmr))
      | goesOn q =>
        rw [hout] at hbusy
        exact absurd (hflight.symm.trans hbusy) (by decide)

/-! ## The words of a test, one at a time -/

/-- The verdict that a test with progress `p` comes to on the words, one `MR_WORD` a word, and the number of words then
used, `used` of them before: what R95's loop is for whole candidates. -/
def scanWords (n rounds : Nat) (p : MrProgress) (used : Nat) : List Word → Option (Bool × Nat)
  | [] => none
  | w :: ws =>
    match wordOutcome n rounds p w with
    | .verdict b => some (b, used + 1)
    | .goesOn q => scanWords n rounds q (used + 1) ws

/-- The verdict that an outcome comes to on the words that follow. -/
def scanFrom (n rounds used : Nat) (ws : List Word) : MrOutcome → Option (Bool × Nat)
  | .verdict b => some (b, used)
  | .goesOn q => scanWords n rounds q used ws

theorem scanWords_cons (n rounds : Nat) (p : MrProgress) (used : Nat) (w : Word) (ws : List Word) :
    scanWords n rounds p used (w :: ws) = scanFrom n rounds (used + 1) ws (wordOutcome n rounds p w) := by
  rw [scanWords]
  cases wordOutcome n rounds p w <;> rfl

/-- Words that leave the candidate incomplete come to no verdict. -/
theorem scanWords_incomplete {n rounds : Nat} : ∀ {ws : List Word} {p : MrProgress} {used : Nat},
    p.buf.length + ws.length < candidateWords n → scanWords n rounds p used ws = none
  | [], _, _, _ => rfl
  | w :: ws, p, used, h => by
    rw [List.length_cons] at h
    have hlen : (p.buf ++ [w]).length = p.buf.length + 1 := List.length_append
    rw [scanWords_cons, wordOutcome_incomplete (by omega)]
    exact scanWords_incomplete (by dsimp only; omega)

/-- The words that complete the candidate lead to its outcome. -/
theorem scanWords_complete {n rounds : Nat} : ∀ {us ws : List Word} {p : MrProgress} {used : Nat}, us ≠ [] →
    p.buf.length + us.length = candidateWords n → scanWords n rounds p used (us ++ ws) =
      scanFrom n rounds (used + us.length) ws (candidateOutcome n rounds p.i (p.buf ++ us))
  | [w], ws, p, used, _, h => by
    have hlen : (p.buf ++ [w]).length = candidateWords n := List.length_append.trans h
    rw [List.singleton_append, scanWords_cons, wordOutcome_complete hlen.ge, List.length_singleton]
  | w :: u :: us, ws, p, used, _, h => by
    have hlen : (p.buf ++ [w]).length = p.buf.length + 1 := List.length_append
    rw [List.length_cons, List.length_cons] at h
    rw [List.cons_append, scanWords_cons, wordOutcome_incomplete (by omega)]
    refine (scanWords_complete (List.cons_ne_nil u us) (by dsimp only; rw [List.length_cons]; omega)).trans ?_
    rw [List.append_assoc, List.singleton_append, List.length_cons (a := w), Nat.add_assoc used 1, Nat.add_comm 1]

/-- A candidate's words, the first of its round, lead to its outcome. -/
theorem scanWords_candidate {n rounds i used : Nat} {ws : List Word} (hpos : 1 ≤ candidateWords n)
    (h : candidateWords n ≤ ws.length) : scanWords n rounds { i := i, buf := [] } used ws =
      scanFrom n rounds (used + candidateWords n) (ws.drop (candidateWords n))
        (candidateOutcome n rounds i (ws.take (candidateWords n))) := by
  have hlen : (ws.take (candidateWords n)).length = candidateWords n := List.length_take_of_le h
  have hne : ws.take (candidateWords n) ≠ [] := List.ne_nil_of_length_pos (by omega)
  have hscan := scanWords_complete (rounds := rounds) (ws := ws.drop (candidateWords n)) (p := { i := i, buf := [] })
    (used := used) hne (by rw [hlen]; exact Nat.zero_add _)
  rwa [List.take_append_drop, List.nil_append, hlen] at hscan

/-! ## The words of a test, one candidate at a time -/

/-- Words that hold no witness come to no verdict (R93, R185). -/
theorem scanWords_of_no_witness {n rounds i : Nat} (hpos : 1 ≤ candidateWords n) :
    ∀ {fuel found used : Nat} {ws : List Word}, ws.length ≤ fuel → witnessLoop n fuel found ws = none →
      scanWords n rounds { i := i, buf := [] } used ws = none
  | 0, _, _, ws, hfuel, _ => by
    rw [List.length_eq_zero_iff.mp (Nat.le_zero.mp hfuel)]
    rfl
  | fuel + 1, found, used, ws, hfuel, h => by
    rw [witnessLoop] at h
    split_ifs at h with hshort hacc
    · exact scanWords_incomplete (by simpa using hshort)
    · rw [scanWords_candidate hpos (not_lt.mp hshort), candidateOutcome_rejected hacc]
      exact scanWords_of_no_witness hpos (by rw [List.length_drop]; omega) h

/-- The words up to the first witness lead to its round (R93, R96). -/
theorem scanWords_of_witness {n rounds i a k : Nat} (hpos : 1 ≤ candidateWords n) :
    ∀ {fuel found used : Nat} {ws : List Word}, witnessLoop n fuel found ws = some (a, k) →
      ∃ j, k = found + j ∧ scanWords n rounds { i := i, buf := [] } used ws =
        scanFrom n rounds (used + j) (ws.drop j) (roundOutcome n rounds i a)
  | 0, _, _, _, h => by cases h
  | fuel + 1, found, used, ws, h => by
    rw [witnessLoop] at h
    split_ifs at h with hshort hacc
    · obtain ⟨rfl, rfl⟩ := Prod.mk.inj (Option.some.inj h)
      exact ⟨_, rfl, by rw [scanWords_candidate hpos (not_lt.mp hshort), candidateOutcome_accepted hacc]⟩
    · obtain ⟨j, rfl, hscan⟩ := scanWords_of_witness hpos (used := used + candidateWords n) h
      refine ⟨candidateWords n + j, Nat.add_assoc _ _ _, ?_⟩
      rw [scanWords_candidate hpos (not_lt.mp hshort), candidateOutcome_rejected hacc]
      refine hscan.trans ?_
      rw [List.drop_drop, Nat.add_assoc]

/-- Where `i` rounds are passed and `rest` are still to run, the words come to the verdict of R95's loop: one word at a
time is one witness at a time. -/
theorem scanFrom_passedOutcome {n rounds : Nat} (hpos : 1 ≤ candidateWords n) : ∀ {rest i used : Nat} {ws : List Word},
    i + rest = rounds → scanFrom n rounds used ws (passedOutcome rounds i) = mrRounds n rest used ws := by
  intro rest
  induction rest with
  | zero =>
    intro i used ws hi
    rw [passedOutcome_all (show i = rounds from hi)]
    rfl
  | succ rest ih =>
    intro i used ws hi
    rw [passedOutcome_some (by omega), scanFrom]
    cases hw : witness n ws with
    | none =>
      rw [scanWords_of_no_witness hpos le_rfl hw]
      simp only [mrRounds, hw]
    | some found =>
      obtain ⟨a, k⟩ := found
      obtain ⟨j, hk, hscan⟩ := scanWords_of_witness (rounds := rounds) (i := i) (used := used) hpos hw
      obtain rfl : k = j := hk.trans (Nat.zero_add j)
      rw [hscan]
      simp only [mrRounds, hw]
      cases hround : mrRound n a with
      | true => rw [if_pos rfl, roundOutcome_passes hround, ih (by omega)]
      | false =>
        rw [if_neg Bool.false_ne_true, roundOutcome_fails hround]
        rfl

/-- A fresh test with rounds to run comes to the verdict of R95. -/
theorem scanWords_eq_mrtestVerdict {n rounds : Nat} (hpos : 1 ≤ candidateWords n) (hrounds : 0 < rounds)
    (ws : List Word) : scanWords n rounds { i := 0, buf := [] } 0 ws = mrtestVerdict n rounds ws := by
  have hscan := scanFrom_passedOutcome (used := 0) (ws := ws) hpos (Nat.zero_add rounds)
  rwa [passedOutcome_some hrounds.ne] at hscan

/-! ## The steps of a test -/

/-- The engine alone carries out an `MRTEST` of `rounds` rounds on the latched operand, with progress `p`. -/
structure Testing (s : State) (c : Ctx) (rounds : Nat) (p : MrProgress) : Prop where
  alone : s.agenda = []
  in_flight : s.ctx = some c
  progress : c.mr = some p
  command : ∃ ra, decode c.word = .command (.mrtest ra rounds)

/-- The state that a verdict leaves, the source given (R32, R97). -/
def verdictState (s : State) (b : Bool) (src : Source) : State :=
  { s with prime := b, busy := false, done := true, ctx := none, rnd := src }

/-- A step of the machine is then the engine's step of the test. -/
theorem Testing.step_eq {s : State} {c : Ctx} {rounds : Nat} {p : MrProgress} (h : Testing s c rounds p) :
    ∃ ra, step s = exec (.mrtest ra rounds) s := by
  obtain ⟨halone, hc, -, ra, hd⟩ := h
  refine ⟨ra, ?_⟩
  rw [step_of_engineTurn (.inl ⟨halone, rfl⟩), ← halone]
  exact engineStep_of_command hc hd

theorem Testing.step_holds {s : State} {c : Ctx} {rounds : Nat} {p : MrProgress} (h : Testing s c rounds p)
    (hnone : s.rnd.next = none) : step s = .next s := by
  obtain ⟨ra, hs⟩ := h.step_eq
  rw [hs, exec_mrtest_of_progress h.in_flight h.progress, drawWord_none hnone]

theorem Testing.step_word {s : State} {c : Ctx} {rounds : Nat} {p : MrProgress} {w : Word} {src : Source}
    (h : Testing s c rounds p) (hw : s.rnd.next = some (w, src)) :
    step s = .next ((wordOutcome c.va rounds p w).apply c { s with rnd := src }) := by
  obtain ⟨ra, hs⟩ := h.step_eq
  rw [hs, exec_mrtest_of_word h.in_flight h.progress hw]

/-- A test that goes on is a test in flight. -/
theorem Testing.goesOn {s : State} {c : Ctx} {rounds : Nat} {p : MrProgress} (h : Testing s c rounds p)
    (q : MrProgress) (src : Source) :
    Testing (MrOutcome.apply c { s with rnd := src } (.goesOn q)) { c with mr := some q } rounds q :=
  ⟨h.alone, rfl, rfl, h.command⟩

/-- Where the words to come decide the test, the steps commit that verdict after exactly the words it takes (R96). -/
theorem run_of_scanWords {rounds : Nat} {b : Bool} {k : Nat} : ∀ {m used : Nat} {s : State} {c : Ctx} {p : MrProgress},
    Testing s c rounds p → scanWords c.va rounds p used (s.rnd.upcoming m) = some (b, k) →
      ∃ j, k = used + j ∧ Host.Core.run core j s = .next (verdictState s b (s.rnd.after j))
  | 0, _, _, _, _, _, hscan => by cases hscan
  | m + 1, used, s, c, p, h, hscan => by
    cases hnext : s.rnd.next with
    | none =>
      rw [upcoming_none hnext] at hscan
      cases hscan
    | some offer =>
      obtain ⟨w, src⟩ := offer
      have hstep := h.step_word hnext
      rw [upcoming_succ hnext, scanWords_cons] at hscan
      cases hout : wordOutcome c.va rounds p w with
      | verdict b' =>
        rw [hout] at hscan hstep
        obtain ⟨rfl, rfl⟩ := Prod.mk.inj (Option.some.inj hscan)
        exact ⟨1, rfl, by rw [run_succ hstep, after_succ hnext]; rfl⟩
      | goesOn q =>
        rw [hout] at hscan hstep
        obtain ⟨j, rfl, hrun⟩ := run_of_scanWords (h.goesOn q src) hscan
        exact ⟨j + 1, by omega, by rw [run_succ hstep, hrun, after_succ hnext]; rfl⟩

/-- Where no number of the words to come decides the test, no number of steps ends it (R185). -/
theorem run_busy_of_scanWords {rounds : Nat} : ∀ {k used : Nat} {s : State} {c : Ctx} {p : MrProgress},
    Testing s c rounds p → s.busy = true → (∀ m, scanWords c.va rounds p used (s.rnd.upcoming m) = none) →
      ∃ t : State, Host.Core.run core k s = .next t ∧ t.busy = true
  | 0, _, s, _, _, _, hbusy, _ => ⟨s, rfl, hbusy⟩
  | k + 1, used, s, c, p, h, hbusy, hscan => by
    cases hnext : s.rnd.next with
    | none => exact ⟨s, run_of_step_self (h.step_holds hnext) (k + 1), hbusy⟩
    | some offer =>
      obtain ⟨w, src⟩ := offer
      have hstep := h.step_word hnext
      have hscan' : ∀ m, scanFrom c.va rounds (used + 1) (src.upcoming m) (wordOutcome c.va rounds p w) = none :=
        fun m => by rw [← scanWords_cons, ← upcoming_succ hnext, hscan]
      cases hout : wordOutcome c.va rounds p w with
      | verdict b =>
        have hzero := hscan' 0
        rw [hout] at hzero
        cases hzero
      | goesOn q =>
        rw [hout] at hscan' hstep
        rw [run_succ hstep]
        exact run_busy_of_scanWords (h.goesOn q src) hbusy hscan'

/-- Settles O52: the steps follow the words one at a time, and the words one at a time are R95's loop. -/
theorem stepsCarryOutTheRoundsLoop : Obligations.StepsCarryOutTheRoundsLoop := by
  intro s c ra imm h halone hc hd hmr
  have htest : Testing s c imm { i := 0, buf := [] } := ⟨halone, hc, hmr, ra, hd⟩
  have hbusy : s.busy = true := by rw [h.busy_iff, hc, Option.isSome_some]
  have hpos := candidateWords_pos (five_le_of_progress h hc hmr)
  have himm : 0 < imm := (mrtest_fields hd).2 ▸ ((h.ctx_inv c hc).progress _ hmr).1
  refine ⟨fun m verdict k hverdict => ?_, fun hnone k => ?_⟩
  · rw [← scanWords_eq_mrtestVerdict hpos himm] at hverdict
    obtain ⟨j, hk, hrun⟩ := run_of_scanWords htest hverdict
    obtain rfl : k = j := hk.trans (Nat.zero_add j)
    exact hrun
  · exact run_busy_of_scanWords htest hbusy fun m => (scanWords_eq_mrtestVerdict hpos himm _).trans (hnone m)

end Sys2Proof.Machine
end

section
/-! SUPPORT and settled statements. `GCD` and `MODINV`: the extended Euclidean algorithm, the inverse it gives, and the
commands' completions (R110 to R114). -/

namespace Sys2Proof.Machine

/-! ## The extended Euclidean algorithm -/

/-- The loop's invariant holds of its start: `b - b*1` and `m - b*0` are multiples of `m` (R112). -/
theorem egcd_spec (b m : Nat) : (egcd b m).1 = Nat.gcd b m ∧ (m : Int) ∣ (Nat.gcd b m : Int) - b * (egcd b m).2 :=
  egcdLoop_spec le_rfl (by simp) (by simp)

/-- Settles O46: the multiple of `m` by which `b * x` misses the gcd gives the other coefficient. -/
theorem egcdGivesABezoutCoefficient : Obligations.EgcdGivesABezoutCoefficient := by
  refine ⟨fun b m _ => ?_, by decide⟩
  obtain ⟨hg, y, hy⟩ := egcd_spec b m
  exact ⟨hg, y, by rw [← hy, add_sub_cancel]⟩

/-! ## The inverse -/

/-- The normalised remainder is congruent to the integer (R8). -/
theorem intMod_modEq (x : Int) {m : Nat} (h : m ≠ 0) : (intMod x m : Int) ≡ x [ZMOD m] := by
  have hcast : (intMod x m : Int) = x % m := Int.toNat_of_nonneg (Int.emod_nonneg x (Int.natCast_ne_zero.mpr h))
  rw [hcast]
  exact Int.mod_modEq x m

/-- The normalised coefficient of `egcd` is an inverse, where there is one (R113). -/
theorem mul_intMod_egcd {b m : Nat} (hm : m ≠ 0) (hg : Nat.gcd b m = 1) : b * intMod (egcd b m).2 m ≡ 1 [MOD m] := by
  obtain ⟨-, hdvd⟩ := egcd_spec b m
  rw [hg] at hdvd
  have hmul : (b * intMod (egcd b m).2 m : Int) ≡ 1 [ZMOD m] :=
    ((intMod_modEq _ hm).mul_left b).trans (Int.modEq_iff_dvd.mpr hdvd)
  exact Int.natCast_modEq_iff.mp (by push_cast; exact hmul)

/-- Two inverses below the modulus are the same (R113). -/
theorem inverse_unique {b m r r' : Nat} (hg : Nat.gcd b m = 1) (hr : r < m) (hr' : r' < m) (h : b * r ≡ 1 [MOD m])
    (h' : b * r' ≡ 1 [MOD m]) : r' = r :=
  (Nat.ModEq.cancel_left_of_coprime (Nat.gcd_comm m b ▸ hg) (h'.trans h.symm)).eq_of_lt_of_lt hr' hr

/-! ## Completion -/

/-- The state in which a register command completes, its outcome for the command in flight being known. -/
theorem exec_register_of_outcome {s : State} {c : Ctx} {i : Instr} {rd : Nat} {r : Ctx → Except ErrKind Nat}
    {o : Except ErrKind Nat} (hi : registerCommand i = some (rd, r)) (hc : s.ctx = some c) (ho : r c = o) :
    exec i s = .next (complete rd o s) := by
  rw [exec_register hi, onCommand_some hc, ho]

/-- The completion that writes a value, in full (R32). -/
theorem complete_ok {rd : Nat} (h : rd < 8) (v : Nat) (s : State) :
    complete rd (.ok v) s = { s with x := s.x.set rd v h, busy := false, done := true, ctx := none } := by
  simp only [complete, commitOk, setX_eq_set h, State.finish]

/-- Settles O9: the reference loop computes the gcd. -/
theorem gcdWritesTheGreatestCommonDivisor : Obligations.GcdWritesTheGreatestCommonDivisor := by
  intro s c rd ra rb h hc _
  refine ⟨fun hzero => (exec_register_of_outcome rfl hc (if_pos hzero)).trans rfl, fun hpos => ?_⟩
  rw [exec_register_of_outcome rfl hc (if_neg (not_or.mpr hpos)), complete_ok h, gcdRef_eq_gcd]

/-- Settles O10: the value written is the normalised coefficient of `egcd`. -/
theorem modinvWritesTheInverse : Obligations.ModinvWritesTheInverse := by
  intro s c rd ra rm h hc _
  obtain ⟨hegcd, -⟩ := egcd_spec c.va c.vm
  refine ⟨fun hm => (exec_register_of_outcome rfl hc (if_pos hm)).trans rfl, fun hm hg => ?_, fun hm hg => ?_⟩
  · exact (exec_register_of_outcome rfl hc ((if_neg hm).trans (if_pos (hegcd.trans_ne hg)))).trans rfl
  · have hlt : intMod (egcd c.va c.vm).2 c.vm < c.vm := intMod_lt _ hm
    have hinv := mul_intMod_egcd hm hg
    refine ⟨_, hlt, hinv, fun r' hr' hinv' => inverse_unique hg hlt hr' hinv hinv', ?_⟩
    rw [exec_register_of_outcome rfl hc ((if_neg hm).trans (if_neg (not_not.mpr (hegcd.trans hg)))), complete_ok h]

end Sys2Proof.Machine
end

section
/-! SUPPORT and settled statements. `MODEXP`: the power it computes, the command's completion, and the round trip of a
block under two exponents inverse to each other (R125 to R129). -/

namespace Sys2Proof.Machine

/-- Settles O45: square-and-multiply computes the power modulo `m`, for `e = 0` the empty product. -/
theorem modpowIsThePowerModulo : Obligations.ModpowIsThePowerModulo :=
  fun b e _ hm => ⟨modpow_eq_pow_mod b e hm, modpow_eq_pow_mod b 0 hm, modpow_lt b e hm⟩

/-- Settles O11: a block below the modulus makes the modulus positive, and the value written is then the power. -/
theorem modexpWritesThePower : Obligations.ModexpWritesThePower := by
  intro s c rd ra rb rm h hc _
  refine ⟨fun hle => (exec_register_of_outcome rfl hc (if_pos hle)).trans rfl, fun hlt => ?_⟩
  rw [exec_register_of_outcome rfl hc (if_neg (not_le.mpr hlt)), complete_ok h,
    modpow_eq_pow_mod _ _ (Nat.zero_lt_of_lt hlt)]

/-! ## The round trip -/

/-- `modpow` twice is the power by the product of the exponents (R125). -/
theorem modpow_modpow (b e d : Nat) {m : Nat} (h : 0 < m) : modpow (modpow b e m) d m = b ^ (e * d) % m := by
  rw [modpow_eq_pow_mod _ d h, modpow_eq_pow_mod b e h, ← Nat.pow_mod, ← pow_mul]

/-- Fermat for every base: modulo a prime `p` an exponent that is 1 modulo `p - 1` gives the base back. -/
theorem pow_modEq_self_of_prime {p n : Nat} (hp : p.Prime) (hpos : 1 ≤ n) (hn : n ≡ 1 [MOD p - 1]) (b : Nat) :
    b ^ n ≡ b [MOD p] := by
  obtain ⟨k, hk⟩ := (Nat.modEq_iff_dvd' hpos).mp hn.symm
  obtain rfl : n = (p - 1) * k + 1 := by omega
  by_cases hb : p ∣ b
  · have hzero : b ≡ 0 [MOD p] := Nat.modEq_zero_iff_dvd.mpr hb
    exact (Nat.modEq_zero_iff_dvd.mpr (dvd_pow hb (Nat.succ_ne_zero _))).trans hzero.symm
  · have hfermat : b ^ (p - 1) ≡ 1 [MOD p] :=
      Nat.ModEq.pow_card_sub_one_eq_one hp ((hp.coprime_iff_not_dvd.mpr hb).symm)
    calc b ^ ((p - 1) * k + 1) = (b ^ (p - 1)) ^ k * b := by rw [pow_succ, pow_mul]
      _ ≡ 1 ^ k * b [MOD p] := (hfermat.pow k).mul_right b
      _ = b := by rw [one_pow, one_mul]

/-- Settles O54: the power by `e * d` is the block modulo each of the two primes, so modulo their product. -/
theorem transformRoundTrip : Obligations.TransformRoundTrip := by
  intro p q e d b hp hq hpq hed hb
  have hpos : 1 ≤ e * d := Nat.one_le_iff_ne_zero.mpr fun h0 => by simp [h0] at hed
  have hinv : e * d ≡ 1 [MOD (p - 1) * (q - 1)] :=
    (Nat.mod_modEq (e * d) _).symm.trans (congrArg (· % _) hed)
  have hmodp : b ^ (e * d) ≡ b [MOD p] := pow_modEq_self_of_prime hp hpos hinv.of_mul_right b
  have hmodq : b ^ (e * d) ≡ b [MOD q] := pow_modEq_self_of_prime hq hpos hinv.of_mul_left b
  have hmod : b ^ (e * d) ≡ b [MOD p * q] :=
    (Nat.modEq_and_modEq_iff_modEq_mul ((Nat.coprime_primes hp hq).mpr hpq)).mp ⟨hmodp, hmodq⟩
  rw [modpow_modpow b e d (Nat.zero_lt_of_lt hb)]
  exact Nat.mod_eq_of_modEq hmod hb

end Sys2Proof.Machine
end

section
/-! SUPPORT and settled statements. `MODMUL`, `MODRED` and `CMP`: their completions (R135 to R138). -/

namespace Sys2Proof.Machine

/-- What a command of the division unit does, the value to reduce being `v` of the context (R135, R136). -/
theorem exec_reduced {s : State} {c : Ctx} {i : Instr} {rd : Nat} {v : Ctx → Nat}
    (hi : registerCommand i = some (rd, fun c => if c.vm = 0 then .error .invalidArgument else .ok (v c % c.vm)))
    (hc : s.ctx = some c) (h : rd < 8) :
    (c.vm = 0 → exec i s = .next { s with code := 1#4, busy := false, done := true, ctx := none }) ∧
    (c.vm ≠ 0 → exec i s =
      .next { s with x := s.x.set rd (v c % c.vm) h, busy := false, done := true, ctx := none }) := by
  refine ⟨fun hm => (exec_register_of_outcome hi hc (if_pos hm)).trans rfl, fun hm => ?_⟩
  rw [exec_register_of_outcome hi hc (if_neg hm), complete_ok h]

/-- Settles O12: the value reduced is the exact product. -/
theorem modmulWritesTheReducedProduct : Obligations.ModmulWritesTheReducedProduct :=
  fun _ _ _ _ _ _ h hc _ => exec_reduced (v := fun c => c.va * c.vb) rfl hc h

/-- Settles O13: the value reduced is the operand. -/
theorem modredWritesTheRemainder : Obligations.ModredWritesTheRemainder :=
  fun _ _ _ _ _ h hc _ => exec_reduced (v := Ctx.va) rfl hc h

/-- With a command in flight `CMP` completes with its comparison (R137). -/
theorem exec_cmp_of_command {s : State} {c : Ctx} (hc : s.ctx = some c) (ra rb : Nat) :
    exec (.cmp ra rb) s = .next (commitOk (·.setCompare c.va c.vb) s) :=
  onCommand_some hc _

/-- Settles O14: the one write of the completion is the comparison's. -/
theorem cmpWritesEqAndLt : Obligations.CmpWritesEqAndLt :=
  fun _ _ ra rb hc _ => exec_cmp_of_command hc ra rb

end Sys2Proof.Machine
end

section
/-! SUPPORT and settled statements. A command issued and then given one engine step computes its contract on the values
the registers held before the issue, whatever registers it names (R31, R140). -/

namespace Sys2Proof.Machine

open Laws.EncodedFields (fields)

/-! ## From the write of `CMD` to the command's step -/

/-- `s` once the host's write of the command `i` to `CMD` has been accepted and answered, the agenda gone on to `rest`
(R31). -/
def State.accepted (i : Instr) (rest : List Event) (s : State) : State :=
  { s.issue (encode i) with agenda := rest, answers := .ok :: s.answers }

theorem step_accepts {s : State} {i : Instr} {rest : List Event} (hb : s.busy = false)
    (h : s.agenda = .host (.write 0x0010 4 (encode i)) :: rest) : step s = .next (s.accepted i rest) := by
  rw [step_of_write h (target_cmd _), writeTarget_cmd_idle (s := { s with agenda := rest }) hb]
  rfl

/-- The engine's step after the write is the command's own. -/
theorem step_accepted {i : Instr} (hi : i.WellFormed) (s : State) (rest : List Event) :
    step (s.accepted i (.engine :: rest)) = exec i (s.accepted i rest) := by
  rw [step_of_engineTurn (rest := rest) (.inr rfl)]
  exact engineStep_of_command (c := s.latch (encode i)) rfl (decode_encode hi)

/-- The operands latched for a command are the values of the registers it names (R31). -/
theorem latch_encode {i : Instr} {op rd ra rb rm imm : Nat} (hi : i.WellFormed)
    (hf : fields i = (op, rd, ra, rb, rm, imm)) (s : State) :
    (s.latch (encode i)).va = s.readX ra ∧ (s.latch (encode i)).vb = s.readX rb ∧
      (s.latch (encode i)).vm = s.readX rm := by
  obtain ⟨hfields, -⟩ := encodedFields i hi
  rw [hf] at hfields
  simp only [Prod.mk.injEq] at hfields
  obtain ⟨-, -, hra, hrb, hrm, -⟩ := hfields
  simp only [State.latch, hra, hrb, hrm, and_self]

/-! ## The commands that write a register -/

/-- What a register command's outcome shows in the state `u` after it, `s` being the state before: the error's code and
no register written, or no error and the value in the destination (R32, R153). -/
def ShowsOutcome (s u : State) (rd : Nat) : Except ErrKind Nat → Prop
  | .error k => u.code = k.code ∧ u.x = s.x
  | .ok v => u.code = 0#4 ∧ u.readX rd = v

theorem complete_showsOutcome {s : State} {rd : Nat} (hcode : s.code = 0#4) (h : rd < 8) (o : Except ErrKind Nat) :
    ShowsOutcome s (complete rd o s) rd o := by
  cases o with
  | error k => exact ⟨rfl, rfl⟩
  | ok v => exact ⟨hcode, readX_setX_self h v s⟩

theorem complete_ends (rd : Nat) (o : Except ErrKind Nat) (s : State) :
    (complete rd o s).busy = false ∧ (complete rd o s).done = true := by
  cases o <;> exact ⟨rfl, rfl⟩

/-- A register command, issued and given one engine step, has ended with the outcome that the latched values determine
and has written no other register; `P` is what a contract says of that outcome. -/
theorem issue_then_complete_register {s : State} {i : Instr} {rest : List Event} {rd : Nat}
    {r : Ctx → Except ErrKind Nat} {P : State → Prop} (hi : i.WellFormed) (hb : s.busy = false)
    (h : s.agenda = .host (.write 0x0010 4 (encode i)) :: .engine :: rest) (hr : registerCommand i = some (rd, r))
    (hrd : rd < 8) (hP : ∀ u, ShowsOutcome s u rd (r (s.latch (encode i))) → P u) :
    ∃ t u, step s = .next t ∧ step t = .next u ∧
      u.busy = false ∧ u.done = true ∧ (∀ j, j ≠ rd → u.readX j = s.readX j) ∧ P u := by
  obtain ⟨hbusy, hdone⟩ := complete_ends rd (r (s.latch (encode i))) (s.accepted i rest)
  refine ⟨_, complete rd (r (s.latch (encode i))) (s.accepted i rest), step_accepts hb h, ?_, hbusy, hdone,
    (complete_writes_destination rfl).1, hP _ (complete_showsOutcome (s := s.accepted i rest) rfl hrd _)⟩
  rw [step_accepted hi]
  exact exec_register_of_outcome hr rfl rfl

/-! ## `MRTEST` -/

/-- Issue begins the rounds of an `MRTEST` exactly when it has rounds to run on an odd operand of at least 5 (R31). -/
theorem latch_mr_of_mrtest {ra imm : Nat} (hi : (Instr.mrtest ra imm).WellFormed) (s : State) :
    (s.latch (encode (.mrtest ra imm))).mr =
      if imm ≠ 0 ∧ s.readX ra % 2 = 1 ∧ 5 ≤ s.readX ra then some { i := 0, buf := [] } else none := by
  rw [latch_mr]
  refine if_congr ((needsWitness_readX_iff s _).trans ?_) rfl rfl
  rw [decode_encode hi]
  constructor
  · rintro ⟨_, _, hd, hn⟩
    cases hd
    exact hn
  · exact fun hn => ⟨ra, imm, rfl, hn⟩

/-- The checks of R91 decide an operand that is below 5 or even: the primes among them are 2 and 3. -/
theorem mrtestComplete_of_small_or_even {rounds : Nat} {c : Ctx} (h0 : rounds ≠ 0) (h : c.va < 5 ∨ c.va % 2 = 0)
    (s : State) :
    mrtestComplete rounds c s = commitOk (·.setPrime (decide (c.va = 2 ∨ c.va = 3))) s := by
  unfold mrtestComplete
  rw [if_neg h0]
  split_ifs with hlt htwo heven hthree
  · rw [decide_eq_false (by omega)]
  · rw [decide_eq_true (by omega)]
  · rw [decide_eq_false (by omega)]
  · rw [decide_eq_true (by omega)]
  · omega

/-- Waiting for a word and taking one raise no error (R96). -/
theorem drawWord_mrWord_code (rounds : Nat) (c : Ctx) (p : MrProgress) (s : State) :
    (drawWord s (mrWord rounds c p)).code = s.code := by
  obtain ⟨-, hs⟩ | ⟨w, src, -, hs⟩ := drawWord_cases s (mrWord rounds c p)
  · rw [hs]
  rw [hs]
  obtain ⟨q, hw⟩ | ⟨b, hw⟩ := mrWord_goes_on_or_commits rounds c p w { s with rnd := src }
  · rw [hw]
  · rw [hw]
    rfl

/-- The contract of an `MRTEST` on its first engine step, the rounds begun only where there are rounds to run on an odd
operand of at least 5 (R91, R96). -/
theorem exec_mrtest_contract {s : State} {c : Ctx} {imm : Nat} (hc : s.ctx = some c)
    (hmr : c.mr = if imm ≠ 0 ∧ c.va % 2 = 1 ∧ 5 ≤ c.va then some { i := 0, buf := [] } else none) (ra : Nat) :
    ∃ u, exec (.mrtest ra imm) s = .next u ∧
      (if imm = 0 then u.busy = false ∧ u.done = true ∧ u.code = 1#4 ∧ u.prime = s.prime
       else if c.va < 5 ∨ c.va % 2 = 0 then
         u.busy = false ∧ u.done = true ∧ u.code = s.code ∧ u.prime = decide (c.va = 2 ∨ c.va = 3)
       else s.rndwait = true ∧ u.code = s.code) := by
  split_ifs with h0 hn
  · rw [if_neg (by omega)] at hmr
    rw [exec_mrtest_of_no_progress hc hmr, mrtestComplete, if_pos h0]
    exact ⟨_, rfl, rfl, rfl, rfl, rfl⟩
  · rw [if_neg (by omega)] at hmr
    rw [exec_mrtest_of_no_progress hc hmr, mrtestComplete_of_small_or_even h0 hn]
    exact ⟨_, rfl, rfl, rfl, rfl, rfl⟩
  · rw [if_pos (by omega)] at hmr
    exact ⟨_, exec_mrtest_of_progress hc hmr ra imm, (rndwait_iff s).mpr ⟨c, _, hc, hmr⟩,
      drawWord_mrWord_code imm c _ s⟩

/-! ## Every command -/

/-- Settles O19: the two steps are issue, which latches the named registers' values, and the command's own step, which
reads no register. -/
theorem issueThenCompleteComputesTheContract : Obligations.IssueThenCompleteComputesTheContract := by
  intro s i rest hi hb h
  cases i with
  | gcd rd ra rb =>
    obtain ⟨hva, hvb, -⟩ := latch_encode hi rfl s
    refine issue_then_complete_register hi hb h rfl hi.1 fun u hu => ?_
    simp only [hva, hvb, gcdRef_eq_gcd] at hu
    split_ifs at hu ⊢ <;> exact hu
  | modinv rd ra rm =>
    obtain ⟨hva, -, hvm⟩ := latch_encode hi rfl s
    refine issue_then_complete_register hi hb h rfl hi.1 fun u hu => ?_
    obtain ⟨hegcd, -⟩ := egcd_spec (s.readX ra) (s.readX rm)
    simp only [hva, hvm, hegcd] at hu
    split_ifs at hu ⊢ with hm hg
    · exact hu
    · exact hu
    · obtain ⟨hcode, hx⟩ := hu
      rw [hx]
      exact ⟨hcode, intMod_lt _ hm, mul_intMod_egcd hm (not_not.mp hg)⟩
  | modexp rd ra rb rm =>
    obtain ⟨hva, hvb, hvm⟩ := latch_encode hi rfl s
    refine issue_then_complete_register hi hb h rfl hi.1 fun u hu => ?_
    simp only [hva, hvb, hvm] at hu
    split_ifs at hu ⊢ with hle
    · exact hu
    · exact modpow_eq_pow_mod _ _ (Nat.zero_lt_of_lt (not_le.mp hle)) ▸ hu
  | modmul rd ra rb rm =>
    obtain ⟨hva, hvb, hvm⟩ := latch_encode hi rfl s
    refine issue_then_complete_register hi hb h rfl hi.1 fun u hu => ?_
    simp only [hva, hvb, hvm] at hu
    split_ifs at hu ⊢ <;> exact hu
  | modred rd ra rm =>
    obtain ⟨hva, -, hvm⟩ := latch_encode hi rfl s
    refine issue_then_complete_register hi hb h rfl hi.1 fun u hu => ?_
    simp only [hva, hvm] at hu
    split_ifs at hu ⊢ <;> exact hu
  | cmp ra rb =>
    obtain ⟨hva, hvb, -⟩ := latch_encode hi rfl s
    have hu := exec_cmp_of_command (s := s.accepted (.cmp ra rb) rest) rfl ra rb
    rw [hva, hvb] at hu
    exact ⟨_, _, step_accepts hb h, (step_accepted hi s rest).trans hu, rfl, rfl, rfl, rfl, rfl, rfl⟩
  | mrtest ra imm =>
    obtain ⟨hva, -, -⟩ := latch_encode hi rfl s
    obtain ⟨u, hu, hcontract⟩ := exec_mrtest_contract (s := s.accepted (.mrtest ra imm) rest) rfl
      (hva ▸ latch_mr_of_mrtest hi s) ra
    rw [hva] at hcontract
    have hx : u.x = (s.accepted (.mrtest ra imm) rest).x := exec_x_of_flag_command rfl hu
    exact ⟨_, u, step_accepts hb h, (step_accepted hi s rest).trans hu, hx, hcontract⟩

end Sys2Proof.Machine
end

section
/-! SUPPORT and settled statements. Errors and stops: what a completion with error writes, which command raises which
error, who writes `HOSTERR`, and that every step answers a next state (R151 to R154, R159, R162). -/

namespace Sys2Proof.Machine

/-! ## Every step answers -/

/-- The engine's step answers a next state, idle and on an illegal word too (R162). -/
theorem engineStep_next (s : State) : ∃ t, engineStep s = .next t := by
  rcases engineStep_cases s with ⟨-, hs⟩ | ⟨c, why, -, -, hs⟩ | ⟨c, i, hc, -, hs⟩
  · exact ⟨s, hs⟩
  · exact ⟨_, hs⟩
  · rw [hs]
    exact exec_next hc i

/-- Settles O37: every event but the engine's answers a next state outright, and the engine's step does. -/
theorem everyStepAnswersANextState : Obligations.EveryStepAnswersANextState := by
  intro s
  cases hs : s.agenda with
  | nil =>
    rw [step_of_engineTurn (.inl ⟨hs, rfl⟩)]
    exact engineStep_next _
  | cons e rest =>
    rw [step_of_cons hs]
    cases e with
    | engine => exact engineStep_next _
    | host | source | reset | poll | skip | skipUnless => exact ⟨_, rfl⟩

/-! ## The completion with error -/

/-- The engine completes an illegal word in flight with an error (R152). -/
theorem engineStep_of_illegal {s : State} {c : Ctx} {why : IllegalReason} (hc : s.ctx = some c)
    (hd : decode c.word = .illegal why) : engineStep s = .next (raise .illegalCommand s) := by
  simp only [engineStep, hc, hd]

/-- Settles O8: in either form of the engine's turn the step raises `IllegalCommand`. -/
theorem illegalWordCompletesWithIllegalCommand : Obligations.IllegalWordCompletesWithIllegalCommand := by
  intro s c why rest hc hd
  refine ⟨fun h => ?_, fun h => ?_⟩
  · rw [step_of_engineTurn (.inl ⟨h, rfl⟩), ← h, engineStep_of_illegal hc hd]
    rfl
  · rw [step_of_engineTurn (.inr h), engineStep_of_illegal (s := { s with agenda := rest }) hc hd]
    rfl

/-- A command's step that leaves a code where there was none is a completion with error. -/
theorem exec_raises {s t : State} {i : Instr} (hcode : s.code = 0#4) (h : exec i s = .next t) (ht : t.code ≠ 0#4) :
    ∃ k, t = raise k s := by
  rcases instr_cases i with ⟨rd, r, hr⟩ | ⟨ra, imm, rfl⟩ | ⟨ra, rb, rfl⟩
  · obtain ⟨c, -, rfl⟩ := exec_register_next hr h
    cases ho : r c with
    | error k => exact ⟨k, rfl⟩
    | ok v => exact absurd hcode (by rwa [ho] at ht)
  · rcases exec_mrtest_cases h with hraise | ⟨b, src, rfl⟩ | ⟨c, src, rfl⟩
    · exact hraise
    · exact absurd hcode ht
    · exact absurd hcode ht
  · obtain ⟨c, -, rfl⟩ := exec_cmp_next h
    exact absurd hcode ht

/-- The engine's step that leaves a code where there was none is a completion with error. -/
theorem engineStep_raises {s t : State} (hcode : s.code = 0#4) (h : engineStep s = .next t) (ht : t.code ≠ 0#4) :
    ∃ k, t = raise k s := by
  rcases engineStep_cases s with ⟨-, hs⟩ | ⟨c, why, -, -, hs⟩ | ⟨c, i, -, -, hs⟩ <;> rw [hs] at h
  · obtain rfl := Host.Outcome.next.inj h
    exact absurd hcode ht
  · exact ⟨.illegalCommand, (Host.Outcome.next.inj h).symm⟩
  · exact exec_raises hcode h ht

/-- What the step leaves when it is the engine's turn and it ends with an error (R153, R154). -/
theorem step_of_error {s t : State} {rest : List Event} (h : Invariant s) (hb : s.busy = true)
    (hturn : EngineTurn s rest) (hstep : step s = .next t) (ht : t.code ≠ 0#4) :
    t = { s with code := t.code, busy := false, done := true, ctx := none, agenda := rest } := by
  obtain ⟨-, hcode⟩ := h.clear_in_flight hb
  rw [step_of_engineTurn hturn] at hstep
  obtain ⟨k, rfl⟩ := engineStep_raises (s := { s with agenda := rest }) hcode hstep ht
  rfl

/-- Settles O21: the code was 0 while the command was in flight, so the step that leaves another one is a completion
with error, which changes nothing else. -/
theorem anErrorChangesNothingElse : Obligations.AnErrorChangesNothingElse := by
  intro s t rest h hb hstep ht
  refine ⟨fun hnil => ?_, fun hcons => step_of_error h hb (.inr hcons) hstep ht⟩
  have hstate := step_of_error h hb (.inl ⟨hnil, rfl⟩) hstep ht
  rwa [← hnil] at hstate

/-! ## Which command raises which error -/

/-- The code a register command's outcome leaves: the error's, or 0 (R31, R153). -/
def outcomeCode : Except ErrKind Nat → BitVec 4
  | .error k => k.code
  | .ok _ => 0#4

theorem complete_code {s : State} (hcode : s.code = 0#4) (rd : Nat) (o : Except ErrKind Nat) :
    (complete rd o s).code = outcomeCode o := by
  cases o with
  | error k => rfl
  | ok v => exact hcode

theorem exec_register_code {s : State} {c : Ctx} {i : Instr} {rd : Nat} {r : Ctx → Except ErrKind Nat}
    (hi : registerCommand i = some (rd, r)) (hc : s.ctx = some c) (hcode : s.code = 0#4) :
    ∃ t, exec i s = .next t ∧ t.code = outcomeCode (r c) :=
  ⟨_, exec_register_of_outcome hi hc rfl, complete_code hcode rd (r c)⟩

/-- The outcome of a command with a single check has the code of that check. -/
theorem outcomeCode_check (p : Prop) [Decidable p] (k : ErrKind) (v : Nat) :
    outcomeCode (if p then .error k else .ok v) = if p then k.code else 0#4 := by
  split_ifs <;> rfl

/-- The only error among the checks of R91 is the one on the round count. -/
theorem mrtestComplete_code (rounds : Nat) (c : Ctx) (s : State) :
    (mrtestComplete rounds c s).code = if rounds = 0 then 1#4 else s.code := by
  unfold mrtestComplete
  split_ifs <;> rfl

/-- An `MRTEST` whose rounds have begun has rounds to run (R30, R31). -/
theorem rounds_ne_zero_of_progress {s : State} {c : Ctx} {p : MrProgress} {ra imm : Nat} (h : Invariant s)
    (hc : s.ctx = some c) (hd : decode c.word = .command (.mrtest ra imm)) (hp : c.mr = some p) : imm ≠ 0 := by
  obtain ⟨hi, -⟩ := (h.ctx_inv c hc).progress p hp
  rw [(mrtest_fields hd).2] at hi
  exact Nat.ne_zero_of_lt hi

theorem exec_mrtest_code {s : State} {c : Ctx} {ra imm : Nat} (h : Invariant s) (hc : s.ctx = some c)
    (hd : decode c.word = .command (.mrtest ra imm)) :
    ∃ t, exec (.mrtest ra imm) s = .next t ∧ t.code = if imm = 0 then 1#4 else s.code := by
  cases hmr : c.mr with
  | none => exact ⟨_, exec_mrtest_of_no_progress hc hmr ra imm, mrtestComplete_code imm c s⟩
  | some p =>
    refine ⟨_, exec_mrtest_of_progress hc hmr ra imm, ?_⟩
    rw [if_neg (rounds_ne_zero_of_progress h hc hd hmr)]
    exact drawWord_mrWord_code imm c p s

/-- Settles O20: the code was 0 while the command was in flight, and each check of a command is a row of the table. -/
theorem errorsAreRaisedExactlyWhenListed : Obligations.ErrorsAreRaisedExactlyWhenListed := by
  intro s c i h hc hd
  have hbusy : s.busy = true := by rw [h.busy_iff, hc, Option.isSome_some]
  obtain ⟨-, hcode⟩ := h.clear_in_flight hbusy
  cases i with
  | mrtest ra imm =>
    obtain ⟨t, ht, hk⟩ := exec_mrtest_code h hc hd
    exact ⟨t, ht, hcode ▸ hk⟩
  | modinv rd ra rm =>
    obtain ⟨t, ht, hk⟩ := exec_register_code (i := .modinv rd ra rm) rfl hc hcode
    obtain ⟨hegcd, -⟩ := egcd_spec c.va c.vm
    refine ⟨t, ht, hk.trans ?_⟩
    simp only [hegcd]
    split_ifs <;> rfl
  | gcd | modexp | modmul | modred =>
    refine Exists.imp (fun t ht => ht.imp_right (·.trans ?_)) (exec_register_code rfl hc hcode)
    exact outcomeCode_check _ _ _
  | cmp ra rb => exact ⟨_, exec_cmp_of_command hc ra rb, hcode⟩

/-! ## Who writes `HOSTERR` -/

/-- What a write to a target of the window does to `HOSTERR`: nothing, `STATUS`'s write-1-to-clear, or a dropped write
(R27, R64, R159). -/
theorem writeTarget_hosterr (s : State) (v : Word) (tgt : Target) :
    (s.writeTarget v tgt).hosterr = s.hosterr ∨
    (tgt = .status ∧ (s.writeTarget v tgt).hosterr = (s.hosterr && !v.getLsbD 7)) ∨
    (s.busy = true ∧ (tgt = .cmd ∨ ∃ i j, tgt = .limb i j) ∧ (s.writeTarget v tgt).hosterr = true) := by
  cases tgt with
  | cfg | ctrl | errcode => exact .inl rfl
  | status => exact .inr <| .inl ⟨rfl, rfl⟩
  | cmd =>
    cases hb : s.busy with
    | false => exact .inl (by rw [writeTarget_cmd_idle hb, issue_hosterr])
    | true => exact .inr <| .inr ⟨rfl, .inl rfl, by rw [(writeTarget_busy hb v).1, dropWrite_hosterr]⟩
  | limb i j =>
    cases hb : s.busy with
    | false => exact .inl (by rw [writeTarget_limb_idle hb, writeLimb_hosterr])
    | true => exact .inr <| .inr ⟨rfl, .inr ⟨i, j, rfl⟩, by rw [(writeTarget_busy hb v).2, dropWrite_hosterr]⟩

/-- The one offset that names `STATUS` (R51). -/
theorem offset_of_target_status {nl off : Nat} (h : target nl off = some .status) : off = 0x0008 := by
  rcases target_register h with ⟨-, ht⟩ | ⟨-, ht⟩ | ⟨ho, -⟩ | ⟨-, ht⟩ | ⟨-, ht⟩ | ⟨i, j, ht, -⟩
  case inr.inr.inl => exact ho
  all_goals cases ht

/-- The one offset that names `CMD` (R51). -/
theorem offset_of_target_cmd {nl off : Nat} (h : target nl off = some .cmd) : off = 0x0010 := by
  rcases target_register h with ⟨-, ht⟩ | ⟨-, ht⟩ | ⟨-, ht⟩ | ⟨-, ht⟩ | ⟨ho, -⟩ | ⟨i, j, ht, -⟩
  case inr.inr.inr.inr.inl => exact ho
  all_goals cases ht

/-- The offsets whose writes are dropped while a command is in flight: `CMD` and the mapped operand limbs (R51, R64). -/
def IsDroppedWhileBusy (nlimbs off : Nat) : Prop :=
  off = 0x0010 ∨ ∃ i j, i < 8 ∧ j < nlimbs ∧ off = 0x1000 + 0x400 * i + 4 * j

/-- The targets whose writes are dropped stand at these offsets. -/
theorem isDroppedWhileBusy_of_target {nl off : Nat} {tgt : Target} (h : target nl off = some tgt)
    (ht : tgt = .cmd ∨ ∃ i j, tgt = .limb i j) : IsDroppedWhileBusy nl off := by
  obtain rfl | ⟨i, j, rfl⟩ := ht
  · exact .inl (offset_of_target_cmd h)
  · obtain ⟨hoff, hi, hj⟩ := offset_of_target_limb h
    exact .inr ⟨i, j, hi, hj, hoff⟩

/-- What a host transaction does to `HOSTERR`: nothing, the write-1-to-clear of `STATUS`, or, a command being in flight,
the dropped write to `CMD` or to a limb (R27, R64, R159). -/
theorem transact_hosterr (tr : Transaction) (s : State) :
    (s.transact tr).hosterr = s.hosterr ∨
    (∃ v, tr = .write 0x0008 4 v ∧ (s.transact tr).hosterr = (s.hosterr && !v.getLsbD 7)) ∨
    (s.busy = true ∧ (s.transact tr).hosterr = true ∧ ∃ off v, tr = .write off 4 v ∧
      IsDroppedWhileBusy s.nlimbs off) := by
  obtain ⟨as, n, h⟩ | ⟨off, v, tgt, rfl, htgt, h⟩ := transact_cases tr s <;> rw [h]
  · exact .inl rfl
  · obtain hkept | ⟨rfl, hclear⟩ | ⟨hb, ht, hset⟩ := writeTarget_hosterr s v tgt
    · exact .inl hkept
    · obtain rfl := offset_of_target_status htgt
      exact .inr <| .inl ⟨v, rfl, hclear⟩
    · exact .inr <| .inr ⟨hb, hset, off, v, rfl, isDroppedWhileBusy_of_target htgt ht⟩

/-- What a step does to `HOSTERR`: nothing, reset, the host's write-1-to-clear of `STATUS`, or the host's dropped write
(R27, R64, R159). -/
theorem step_hosterr {s t : State} (h : step s = .next t) :
    t.hosterr = s.hosterr ∨
    (∃ rest, s.agenda = .reset :: rest ∧ t.hosterr = false) ∨
    (∃ v rest, s.agenda = .host (.write 0x0008 4 v) :: rest ∧ t.hosterr = (s.hosterr && !v.getLsbD 7)) ∨
    (s.busy = true ∧ t.hosterr = true ∧ ∃ off v rest, s.agenda = .host (.write off 4 v) :: rest ∧
      IsDroppedWhileBusy s.nlimbs off) := by
  rcases step_cases h with ⟨rest, -, ht⟩ | ⟨tr, rest, hagenda, rfl⟩ | ⟨rest, hagenda, rfl⟩ | ⟨src, ag, as, n, rfl⟩
  · exact .inl (engineStep_frame ht).hosterr
  · obtain hkept | ⟨v, rfl, hclear⟩ | ⟨hb, hset, off, v, rfl, hoff⟩ := transact_hosterr tr { s with agenda := rest }
    · exact .inl hkept
    · exact .inr <| .inr <| .inl ⟨v, rest, hagenda, hclear⟩
    · exact .inr <| .inr <| .inr ⟨hb, hset, off, v, rest, hagenda, hoff⟩
  · exact .inr <| .inl ⟨rest, hagenda, rfl⟩
  · exact .inl rfl

/-- Settles O39: of the steps that write `HOSTERR`, reset and the host's write to `STATUS` cannot set it, and a dropped
write cannot clear it. -/
theorem hosterrIsSticky : Obligations.HosterrIsSticky := by
  intro s t hstep
  obtain hkept | ⟨rest, hagenda, hreset⟩ | ⟨v, rest, hagenda, hclear⟩ | ⟨hb, hset, hwrite⟩ := step_hosterr hstep
  · exact ⟨fun hs ht => by simp [hkept, hs] at ht, fun hs ht => by simp [hkept, hs] at ht⟩
  · exact ⟨fun _ _ => .inl ⟨rest, hagenda⟩, fun _ ht => by simp [hreset] at ht⟩
  · exact ⟨fun hs ht => .inr ⟨v, rest, hagenda, by simpa [hclear, hs] using ht⟩,
      fun hs ht => by simp [hclear, hs] at ht⟩
  · exact ⟨fun _ ht => by simp [hset] at ht, fun _ _ => ⟨hb, hwrite⟩⟩

end Sys2Proof.Machine
end

section
/-! SUPPORT and settled statements. Reset, and how a test's words decide whether it ends: enough accepted candidates
end it, rejected ones are drawn for ever (R93, R96, R180, R185, R190). -/

namespace Sys2Proof.Machine

/-! ## Reset -/

/-- Settles O33: the event at the front of the agenda is reset, which gives each field R37's value. -/
theorem resetClearsTheBlock : Obligations.ResetClearsTheBlock := by
  intro s rest hagenda
  rw [step_of_cons hagenda]
  rfl

/-! ## Counting the accepted candidates -/

/-- Too few words for a candidate hold no accepted one. -/
theorem acceptedLoop_of_short {n : Nat} {ws : List Word} (h : ws.length < candidateWords n) (fuel : Nat) :
    acceptedLoop n fuel ws = 0 := by
  cases fuel with
  | zero => rfl
  | succ fuel => exact if_pos h

/-- The first candidate's words count 1 when it is accepted (R93). -/
theorem acceptedLoop_candidate {n : Nat} {ws : List Word} (h : candidateWords n ≤ ws.length) (fuel : Nat) :
    acceptedLoop n (fuel + 1) ws = (if accepted n (ws.take (candidateWords n)) then 1 else 0) +
      acceptedLoop n fuel (ws.drop (candidateWords n)) := if_neg h.not_gt

/-! ## Enough accepted candidates end the test -/

/-- Where `i` rounds are passed and the words hold an accepted candidate for each round still to run, they come to a
verdict. -/
theorem scanFrom_of_acceptedLoop {n rounds : Nat} (hpos : 1 ≤ candidateWords n) :
    ∀ {fuel i used : Nat} {ws : List Word}, i ≤ rounds → rounds ≤ i + acceptedLoop n fuel ws →
      ∃ v, scanFrom n rounds used ws (passedOutcome rounds i) = some v := by
  intro fuel
  induction fuel with
  | zero =>
    intro i used ws hi henough
    rw [passedOutcome_all (le_antisymm hi henough)]
    exact ⟨_, rfl⟩
  | succ fuel ih =>
    intro i used ws hi henough
    obtain rfl | hne := eq_or_ne i rounds
    · rw [passedOutcome_all rfl]
      exact ⟨_, rfl⟩
    have hlen : candidateWords n ≤ ws.length := by
      by_contra hshort
      rw [acceptedLoop_of_short (not_le.mp hshort)] at henough
      omega
    rw [acceptedLoop_candidate hlen] at henough
    rw [passedOutcome_some hne, scanFrom, scanWords_candidate hpos hlen]
    cases hacc : accepted n (ws.take (candidateWords n)) with
    | false =>
      rw [hacc, if_neg Bool.false_ne_true, Nat.zero_add] at henough
      rw [candidateOutcome_rejected (by simp [hacc]), ← passedOutcome_some hne]
      exact ih hi henough
    | true =>
      rw [hacc, if_pos rfl] at henough
      rw [candidateOutcome_accepted hacc]
      cases hround : mrRound n (candidate n (ws.take (candidateWords n)) + 2) with
      | false =>
        rw [roundOutcome_fails hround]
        exact ⟨_, rfl⟩
      | true =>
        rw [roundOutcome_passes hround]
        exact ih (by omega) (by omega)

/-- A verdict uses no more words than there are. -/
theorem scanWords_used_le {n rounds k : Nat} {b : Bool} : ∀ {ws : List Word} {p : MrProgress} {used : Nat},
    scanWords n rounds p used ws = some (b, k) → k ≤ used + ws.length
  | [], _, _, h => by cases h
  | w :: ws, p, used, h => by
    rw [scanWords_cons] at h
    rw [List.length_cons]
    cases hout : wordOutcome n rounds p w with
    | verdict b' =>
      rw [hout] at h
      obtain ⟨-, rfl⟩ := Prod.mk.inj (Option.some.inj h)
      omega
    | goesOn q =>
      rw [hout] at h
      have hk : k ≤ used + 1 + ws.length := scanWords_used_le h
      omega

/-- Settles O53: the words come to a verdict, which the engine's steps commit after the words it takes. -/
theorem enoughEntropyCompletesTheTest : Obligations.EnoughEntropyCompletesTheTest := by
  intro s c ra imm m h halone hc hd hmr henough
  have htest : Testing s c imm { i := 0, buf := [] } := ⟨halone, hc, hmr, ra, hd⟩
  have hpos := candidateWords_pos (five_le_of_progress h hc hmr)
  obtain ⟨⟨b, k⟩, hscan⟩ := scanFrom_of_acceptedLoop (used := 0) hpos (Nat.zero_le imm)
    (henough.trans (Nat.zero_add _).ge)
  rw [passedOutcome_some (rounds_ne_zero_of_progress h hc hd hmr).symm, scanFrom] at hscan
  obtain ⟨j, hk, hrun⟩ := run_of_scanWords htest hscan
  have hused : k ≤ 0 + (s.rnd.upcoming m).length := scanWords_used_le hscan
  have hm : (s.rnd.upcoming m).length ≤ m := upcoming_length_le m s.rnd
  exact ⟨j, _, by omega, hrun, rfl, rfl⟩

/-! ## Rejected candidates are drawn for ever -/

/-- Of the candidates that the words in the buffer and the words to come make up, none is accepted. -/
def NoneAccepted (n : Nat) (buf ws : List Word) : Prop :=
  buf.length < candidateWords n ∧ ∃ fuel, (buf ++ ws).length ≤ fuel ∧ acceptedLoop n fuel (buf ++ ws) = 0

/-- A word of candidates of which none is accepted counts no round, and none of the rest is accepted (R96). -/
theorem NoneAccepted.goesOn {n : Nat} {buf ws : List Word} {w : Word} (h : NoneAccepted n buf (w :: ws))
    (rounds i : Nat) : ∃ buf', wordOutcome n rounds { i := i, buf := buf } w = .goesOn { i := i, buf := buf' } ∧
      NoneAccepted n buf' ws := by
  obtain ⟨hbuf, fuel, hfuel, hnone⟩ := h
  rw [List.append_cons] at hfuel hnone
  have hlen : (buf ++ [w]).length = buf.length + 1 := List.length_append
  rw [List.length_append, hlen] at hfuel
  by_cases hshort : (buf ++ [w]).length < candidateWords n
  · refine ⟨buf ++ [w], wordOutcome_incomplete hshort rounds, hshort, fuel, ?_, hnone⟩
    rwa [List.length_append, hlen]
  · have hcand : (buf ++ [w]).length = candidateWords n := by omega
    obtain ⟨fuel, rfl⟩ : ∃ f, fuel = f + 1 := ⟨fuel - 1, by omega⟩
    rw [acceptedLoop_candidate (by rw [List.length_append]; omega), List.take_left' hcand,
      List.drop_left' hcand] at hnone
    obtain ⟨hrej, hrest⟩ := Nat.add_eq_zero_iff.mp hnone
    have hrej : ¬ accepted n (buf ++ [w]) = true := fun hacc => by simp [hacc] at hrej
    refine ⟨[], wordOutcome_rejected hcand.ge hrej rounds, Nat.zero_lt_of_lt hbuf, fuel, ?_, hrest⟩
    rw [List.nil_append]
    omega

/-- As many steps as there are words to come, none of whose candidates is accepted, take these words and count no round
(R96, R185). -/
theorem Testing.run_of_noneAccepted {rounds i : Nat} : ∀ {m : Nat} {s : State} {c : Ctx} {buf : List Word},
    Testing s c rounds { i := i, buf := buf } → (s.rnd.upcoming m).length = m →
      NoneAccepted c.va buf (s.rnd.upcoming m) →
      ∃ buf', Host.Core.run core m s =
        .next (MrOutcome.apply c { s with rnd := s.rnd.after m } (.goesOn { i := i, buf := buf' }))
  | 0, s, c, buf, h, _, _ => by
    refine ⟨buf, ?_⟩
    rw [MrOutcome.apply, ← h.progress, ← h.in_flight]
    rfl
  | m + 1, s, c, buf, h, hlen, hnone => by
    cases hnext : s.rnd.next with
    | none =>
      rw [upcoming_none hnext] at hlen
      cases hlen
    | some offer =>
      obtain ⟨w, src⟩ := offer
      rw [upcoming_succ hnext] at hlen hnone
      obtain ⟨buf₁, hout, hnone₁⟩ := hnone.goesOn rounds i
      have hstep := h.step_word hnext
      rw [hout] at hstep
      obtain ⟨buf', hrun⟩ := (h.goesOn _ src).run_of_noneAccepted (Nat.succ.inj hlen) hnone₁
      exact ⟨buf', by rw [run_succ hstep, hrun, after_succ hnext]; rfl⟩

/-- Settles O55: the first `k` words to come hold no accepted candidate, and `k` steps take them. -/
theorem rejectedCandidatesAreDrawnForEver : Obligations.RejectedCandidatesAreDrawnForEver := by
  intro s c h halone hc hmr hrejected k
  obtain ⟨ra, imm, hd⟩ := decode_of_progress h hc hmr
  have htest : Testing s c imm { i := 0, buf := [] } := ⟨halone, hc, hmr, ra, hd⟩
  obtain ⟨hlen, hnone⟩ := hrejected k
  exact htest.run_of_noneAccepted hlen ⟨candidateWords_pos (five_le_of_progress h hc hmr), _, le_rfl, hnone⟩

end Sys2Proof.Machine
end
